-- ==== Sys2Proof/Word.lean ====
section
/-! DEFINITION. The values of the spec's notation: bytes, addresses, the operation names, bus segments,
the bus device's outcome, the result of a call (00_scope.md R6 to R9). -/

namespace Sys2Proof

/-- A byte: an unsigned integer in 0..255 (00_scope.md R6, R5 row `BYTE_W`). -/
abbrev Byte := BitVec 8

/-- An Address: an unsigned 16-bit register/buffer offset (00_scope.md R5 row `ADDR_W`, 20_memory.md R40). -/
abbrev Address := BitVec 16

/-- The operation `op` a call carries, one of `READ` and `WRITE` (10_state.md R22). There is no third (30_encoding.md R76). -/
inductive Op where
  | read
  | write
  deriving DecidableEq, Repr

/-- A value of the error type `E` (60_exceptions.md R140): opaque, with no code and no field the block defines.
DESIGN CHOICE (log entry 1): the values are told apart by a token that the model never looks at. -/
structure TransportError where
  token : Nat
  deriving DecidableEq, Repr

/-- One element of a transaction's ordered list (00_scope.md R9, 20_memory.md R49). -/
inductive Segment where
  /-- an outbound write of known bytes -/
  | write (bytes : List Byte)
  /-- an inbound read of `n` bytes into a caller-supplied buffer of length `n` -/
  | read (n : Nat)
  deriving DecidableEq, Repr

/-- What `BusTransaction` returns (00_scope.md R9, 20_memory.md R48): one outcome for the whole list. -/
inductive BusOutcome where
  /-- success, with the bytes received by the transaction's read segment (none when it has no read segment) -/
  | ok (rd : List Byte)
  /-- failure, with the bus device's own error value -/
  | err (e : TransportError)
  deriving DecidableEq, Repr

/-- The result of an operation, `Result<(), TransportError>` (00_scope.md R9, 30_encoding.md R79). -/
inductive Result where
  | ok
  | err (e : TransportError)
  deriving DecidableEq, Repr

end Sys2Proof
end

