-- ==== Sys2Proof/Config.lean ====
section
/-! DEFINITION. What the spec's parameter table fixes for every model (00_scope.md R5), and the free values. -/

namespace Sys2Proof

/-- `HDR_LEN`, the bytes in the header (00_scope.md R5, 30_encoding.md R71). -/
def Config.hdrLen : Nat := 3

/-- `N_SEG`, the segments of every transaction (00_scope.md R5, 30_encoding.md R75). -/
def Config.nSeg : Nat := 2

/-- The free value behind `any(n)` (00_scope.md R10): byte `i` of draw number `d`.
It has no body, so nothing can be proved of its value (log entry 2). -/
opaque Config.anyByte (d i : Nat) : Byte

end Sys2Proof
end

