-- ==== Sys2Proof/Syntax.lean ====
section
/-! DEFINITION. The two operations (30_encoding.md R79, opcode_table.json): one constructor a row. -/

namespace Sys2Proof

/-- A command in the form 10_state.md R31 uses it, `RdCmd(address, L)` or `WrCmd(address, data)`.
A model's command type has exactly two constructors (30_encoding.md R76). -/
inductive Instr where
  /-- `readFrame(address, buffer)` with `len = len(buffer)` (40_read_frame.md R100) -/
  | readFrame (address : Address) (len : Nat)
  /-- `writeFrame(address, data)` (41_write_frame.md R120) -/
  | writeFrame (address : Address) (data : List Byte)
  deriving DecidableEq, Repr

/-- Which operation the caller used (10_state.md R22). -/
def Instr.op : Instr → Op
  | .readFrame _ _ => .read
  | .writeFrame _ _ => .write

/-- The address of the call (10_state.md R22). -/
def Instr.address : Instr → Address
  | .readFrame a _ => a
  | .writeFrame a _ => a

/-- The payload length L; it is no operand of its own, it is the length of the buffer or of the data (10_state.md R23). -/
def Instr.len : Instr → Nat
  | .readFrame _ n => n
  | .writeFrame _ d => d.length

end Sys2Proof
end

