-- ==== Sys2Proof/WellFormed.lean ====
section
/-! DEFINITION. What is well formed: commands, the segment lists the block may issue, and the bus device's answers. -/

namespace Sys2Proof

/-- Every command is well formed: the block rejects no operand value (40_read_frame.md R101, 41_write_frame.md R121),
no address is reserved (20_memory.md R41), there is no alignment rule (R45), and L is unbounded here (log entry 7). -/
def Instr.wf : Instr → Bool
  | .readFrame _ _ => true
  | .writeFrame _ _ => true

/-- The two shapes of list the block issues, `[Write(h), Read(L)]` and `[Write(h), Write(d)]` with `len(h) = 3`
(20_memory.md R49). -/
def transactionWf : List Segment → Bool
  | [.write h, .read _] => h.length == Config.hdrLen
  | [.write h, .write _] => h.length == Config.hdrLen
  | _ => false

/-- What the bus device's contract says of an outcome of the command's transaction: a success holds, for the read
segment, exactly L bytes (20_memory.md R48, 10_state.md R31 `len(rd) = L`). A write's success carries nothing that is
looked at (`Ok(_)`, 41_write_frame.md R120). -/
def BusOutcome.fits : BusOutcome → Instr → Bool
  | .ok rd, .readFrame _ n => rd.length == n
  | .ok _, .writeFrame _ _ => true
  | .err _, _ => true

end Sys2Proof
end

