-- ==== Sys2Proof/Decode.lean ====
section
/-! DEFINITION. The frame: the decoder of a captured frame (30_encoding.md R74, R78), total on any bytes, and after it
the encoder of a command (30_encoding.md R73, R75), both from the header table of R71. -/

namespace Sys2Proof

/-- The opcode constants (30_encoding.md R72). -/
def opcodeByte : Op → Byte
  | .read => 0x0F#8
  | .write => 0xF0#8

/-- The inverse of `opcodeByte`; the 254 other bytes name no operation (30_encoding.md R76, R78). -/
def opOfByte (b : Byte) : Option Op :=
  if b = opcodeByte .read then some .read
  else if b = opcodeByte .write then some .write
  else none

/-- Header byte 1, `address[15:8]` (30_encoding.md R71). -/
def addrHi (a : Address) : Byte := a.extractLsb' 8 8

/-- Header byte 2, `address[7:0]` (30_encoding.md R71). -/
def addrLo (a : Address) : Byte := a.extractLsb' 0 8

/-- The address of header bytes 1 and 2, high byte first (20_memory.md R43). -/
def joinAddr (hi lo : Byte) : Address := hi ++ lo

/-- `decode_hdr`, which takes exactly three bytes (30_encoding.md R78). -/
def decodeHeader (b0 b1 b2 : Byte) : Option (Op × Address) :=
  (opOfByte b0).map fun op => (op, joinAddr b1 b2)

/-- Why a byte sequence is no frame of this block. -/
inductive DecodeError where
  /-- fewer than three bytes is not a header (95_test_vectors.md V-D6; log entry 15) -/
  | shortHeader (bytes : Nat)
  /-- the first byte is neither opcode (30_encoding.md R78) -/
  | notAFrame (opcode : Byte)
  deriving DecidableEq, Repr

/-- What the decoder reads from a captured frame. -/
inductive Decoded where
  | instr (i : Instr)
  | rejected (why : DecodeError)
  deriving DecidableEq, Repr

/-- The command of a header and the payload bytes that followed it: a read frame tells how many bytes were read,
a write frame which bytes were written (30_encoding.md R70, R74). -/
def commandOf (op : Op) (a : Address) (payload : List Byte) : Instr :=
  match op with
  | .read => .readFrame a payload.length
  | .write => .writeFrame a payload

/-- The decoder of a captured frame: the first 3 bytes are the header and every further byte is payload
(30_encoding.md R74). -/
def decode : List Byte → Decoded
  | b0 :: b1 :: b2 :: payload =>
    match decodeHeader b0 b1 b2 with
    | some (op, a) => .instr (commandOf op a payload)
    | none => .rejected (.notAFrame b0)
  | short => .rejected (.shortHeader short.length)

/-- The command a decoded frame holds, if it is one. -/
def Decoded.instr? : Decoded → Option Instr
  | .instr i => some i
  | .rejected _ => none

/-- The bytes of an `8 * n`-bit number, most significant byte first: the byte sent first is the top byte of the
opcode table's number (00_scope.md R7). -/
def bytesOfNumber : Nat → Nat → List Byte
  | 0, _ => []
  | n + 1, w => BitVec.ofNat 8 (w >>> (8 * n)) :: bytesOfNumber n w

/-- The command read from a word numbered as opcode_table.json numbers it: the 24-bit header H of 00_scope.md R7,
opcode in bits 23:16, with no payload (log entry 8). -/
def decodeTableWord (nbits w : Nat) : Option Instr :=
  (decode (bytesOfNumber (nbits / 8) w)).instr?

/-- Assembling the header, `hdr(op, address)` (30_encoding.md R73). -/
def header (op : Op) (a : Address) : List Byte := [opcodeByte op, addrHi a, addrLo a]

/-- The header of a command. -/
def headerOf (i : Instr) : List Byte := header i.op i.address

/-- The number a list of bytes spells, first byte most significant; of a header it is H (00_scope.md R7). -/
def numberOfBytes (bs : List Byte) : Nat := bs.foldl (fun acc b => acc * 256 + b.toNat) 0

/-- The second segment of a transaction (30_encoding.md R75); it is present even when empty (40_read_frame.md R105,
41_write_frame.md R125). -/
def payloadSegment : Instr → Segment
  | .readFrame _ n => .read n
  | .writeFrame _ d => .write d

/-- The transaction a command encodes to (30_encoding.md R75). -/
def encode (i : Instr) : List Segment := [.write (headerOf i), payloadSegment i]

/-- The bytes a segment sends to the chip, in order (20_memory.md R49). -/
def Segment.outbound : Segment → List Byte
  | .write bs => bs
  | .read _ => []

/-- How many bytes a segment receives (20_memory.md R49). -/
def Segment.inbound : Segment → Nat
  | .write _ => 0
  | .read n => n

/-- The outbound bytes of a transaction in time order: the concatenation of its segments (30_encoding.md R75). -/
def wireOut (segs : List Segment) : List Byte := segs.flatMap Segment.outbound

/-- How many bytes come in during a transaction. -/
def wireIn (segs : List Segment) : Nat := (segs.map Segment.inbound).sum

/-- The payload of the whole frame on the bus: what the chip returned for a read, the data for a write
(30_encoding.md R70). -/
def payloadOnWire (i : Instr) (received : List Byte) : List Byte :=
  match i with
  | .readFrame _ _ => received
  | .writeFrame _ d => d

/-- The complete frame, header and payload, exchanged in one transaction (00_scope.md R11, 30_encoding.md R70). -/
def encodeFrame (i : Instr) (received : List Byte) : List Byte := headerOf i ++ payloadOnWire i received

/-- The command a segment list was encoded from, if the block could have issued it (30_encoding.md R75, R78). -/
def decodeSegments : List Segment → Option Instr
  | [.write [b0, b1, b2], .read n] =>
    match decodeHeader b0 b1 b2 with
    | some (.read, a) => some (.readFrame a n)
    | _ => none
  | [.write [b0, b1, b2], .write d] =>
    match decodeHeader b0 b1 b2 with
    | some (.write, a) => some (.writeFrame a d)
    | _ => none
  | _ => none

end Sys2Proof
end

