-- ==== Sys2Proof/Machine/State.lean ====
section
/-! DEFINITION. The state: the framer's two states, the caller's two byte sequences, the inputs of the other agents,
and the record of what crossed the two ports (10_state.md). -/

namespace Sys2Proof.Machine

/-- The framer's two states (10_state.md R31). -/
inductive Framer where
  /-- no call; carries nothing (10_state.md R20) -/
  | idle
  /-- between the invocation of the bus transaction and its outcome (10_state.md R24) -/
  | inFlight (cmd : Instr)
  deriving DecidableEq, Repr

/-- A command as the upstream port carries it, `RdCmd(address, buffer)` or `WrCmd(address, data)` (10_state.md R29):
the caller lends its buffer or its data with the call. -/
inductive Call where
  | read (address : Address) (buffer : List Byte)
  | write (address : Address) (data : List Byte)
  deriving DecidableEq, Repr

/-- What reaches the block from outside, between two steps. -/
inductive Event where
  /-- the caller presents a command (10_state.md R29, R31) -/
  | present (c : Call)
  /-- the outcome of the transaction in flight arrives (10_state.md R31) -/
  | complete (o : BusOutcome)
  /-- the environment cancels the call in flight (60_exceptions.md R153) -/
  | cancel
  /-- a reset arrives (70_reset_and_hazards.md R171) -/
  | reset
  /-- the caller writes its read buffer (70_reset_and_hazards.md R182) -/
  | setBuffer (bytes : List Byte)
  /-- the caller reads its read buffer (70_reset_and_hazards.md R182) -/
  | readBuffer
  /-- the caller changes its write data (70_reset_and_hazards.md R182) -/
  | setData (bytes : List Byte)
  deriving DecidableEq, Repr

/-- What the bus device does when a transaction is invoked (20_memory.md R50): it answers before anything else
happens, or it answers later, by a `complete` event, or never (70_reset_and_hazards.md R184). -/
inductive Answer where
  | atOnce (o : BusOutcome)
  | later
  deriving DecidableEq, Repr

/-- How a call ended at the upstream port (60_exceptions.md R149, R153). -/
inductive Ending where
  /-- one result was delivered -/
  | delivered (r : Result)
  /-- the call was cancelled, or a reset took it: nothing was delivered -/
  | abandoned
  deriving DecidableEq, Repr

/-- The machine's state. `framer` is the block's own (10_state.md R20, R24); the other fields stand for what is on
the far side of its two ports. INVENTORY.md, under State, gives the rule of each. -/
structure State where
  /-- the framer (10_state.md R31) -/
  framer : Framer
  /-- the caller's read buffer, as last lent or written (10_state.md R23) -/
  buffer : List Byte
  /-- the caller's write data, as last lent or written (10_state.md R23) -/
  data : List Byte
  /-- what the caller and the environment will do, first to come first (log entry 4) -/
  inputs : List Event
  /-- what the bus device will do at the coming transactions, in order; past the end it answers later (log entry 3) -/
  answers : List Answer
  /-- every segment list handed to the bus device, oldest first (10_state.md R30; log entry 6) -/
  log : List (List Segment)
  /-- how each call ended, oldest first (10_state.md R29; log entry 6) -/
  ended : List Ending
  /-- how many free values have been drawn: the model's own field (log entry 2) -/
  draws : Nat
  deriving DecidableEq, Repr

/-- Why a step stops with a fault. -/
inductive Fault where
  /-- Raised by `complete` and by a call the bus device answers at once, when it reports a read of L bytes a success
  with another number of bytes. The bus device's contract excludes it (20_memory.md R48, R50). Safe: the model stops. -/
  | busContractBroken
  deriving DecidableEq, Repr

/-- Why a step is refused. -/
inductive Refusal where
  /-- Raised by `exec` for an instruction with no meaning yet. Safe. -/
  | notModelled (mnemonic : String)
  /-- Raised by `present` while a call is in flight (70_reset_and_hazards.md R176). Safe: the spec gives it no step. -/
  | callInFlight
  /-- Raised by the events `complete` and `cancel` when the framer is Idle: no step exists (10_state.md R31). Safe. -/
  | noCallInFlight
  /-- Raised when the caller touches the lent buffer or data while the call is in flight: outside what a model gives
  meaning to (70_reset_and_hazards.md R182). Safe. -/
  | operandInUse
  deriving DecidableEq, Repr

/-- The machine right after reset (10_state.md R33, 70_reset_and_hazards.md R170): Idle, nothing held, nothing
remembered. The caller's sequences and the model's own field are log entries 5 and 2. -/
def State.reset : State where
  framer := .idle
  buffer := []
  data := []
  inputs := []
  answers := []
  log := []
  ended := []
  draws := 0

/-- What an operation of the machine answers. -/
abbrev Step := Host.Outcome State Fault Refusal

end Sys2Proof.Machine
end

