-- ==== Sys2Proof/Machine/Flags.lean ====
section
/-! DEFINITION. The block has no flag (10_state.md R27). The only status it produces is the result of a call. -/

namespace Sys2Proof.Machine

/-- The result of a call whose transaction had this outcome: success carries no value, an error is passed on
unchanged (60_exceptions.md R142, 40_read_frame.md R102). -/
def resultOf : BusOutcome → Result
  | .ok _ => .ok
  | .err e => .err e

end Sys2Proof.Machine
end

