-- ==== Sys2Proof/Machine/Operands.lean ====
section
/-! DEFINITION. The operands of a call: what the caller lends with it, and which of its sequences a call holds. -/

namespace Sys2Proof.Machine

/-- The command of a call as the upstream port carries it: L is the length of the buffer (10_state.md R23, R31). -/
def commandOfCall : Call → Instr
  | .read a buffer => .readFrame a buffer.length
  | .write a data => .writeFrame a data

/-- The caller lends its buffer, or its data, with the call (10_state.md R23, R29). -/
def lend (c : Call) (s : State) : State :=
  match c with
  | .read _ buffer => { s with buffer := buffer }
  | .write _ data => { s with data := data }

/-- A call of the command whose read buffer holds zeros: what a table word with no payload bits stands for
(log entry 8). -/
def callOfCommand : Instr → Call
  | .readFrame a n => .read a (List.replicate n 0)
  | .writeFrame a data => .write a data

/-- Is the caller's read buffer lent to the call in flight (70_reset_and_hazards.md R182)? -/
def bufferInUse (s : State) : Bool :=
  match s.framer with
  | .inFlight (.readFrame _ _) => true
  | .inFlight (.writeFrame _ _) => false
  | .idle => false

/-- Is the caller's data lent to the call in flight (70_reset_and_hazards.md R182)? -/
def dataInUse (s : State) : Bool :=
  match s.framer with
  | .inFlight (.readFrame _ _) => false
  | .inFlight (.writeFrame _ _) => true
  | .idle => false

/-- `any(n)`: `n` bytes the model does not constrain (00_scope.md R10). -/
def anyBytes (draw n : Nat) : List Byte := (List.range n).map (Config.anyByte draw)

end Sys2Proof.Machine
end

