-- ==== Sys2Proof/Machine/Ops.lean ====
section
/-! DEFINITION. The steps of 10_state.md R31 as operations over the state. -/

namespace Sys2Proof.Machine

/-- Go on with `f` from a next state; a stop stays a stop. -/
def andThen (r : Step) (f : State → Step) : Step :=
  match r with
  | .next s => f s
  | .fault x => .fault x
  | .refused x => .refused x

/-- One invocation of the bus device's transaction primitive, the only way the block touches anything outside itself
(00_scope.md R10, 20_memory.md R48): the list goes out as it is. -/
def busTransaction (segs : List Segment) (s : State) : State := { s with log := s.log ++ [segs] }

/-- `buffer <- bytes` (00_scope.md R10). -/
def fillBuffer (bytes : List Byte) (s : State) : State := { s with buffer := bytes }

/-- `buffer <- any(n)` (40_read_frame.md R103): every byte is drawn afresh; the length is kept. -/
def spoilBuffer (n : Nat) (s : State) : State :=
  { s with buffer := anyBytes s.draws n, draws := s.draws + 1 }

/-- Deliver a result to the caller; the framer goes to Idle (10_state.md R31, 60_exceptions.md R149). -/
def deliver (r : Result) (s : State) : State :=
  { s with framer := .idle, ended := s.ended ++ [.delivered r] }

/-- The call ends without a result; the framer goes to Idle (60_exceptions.md R153). -/
def abandon (s : State) : State :=
  { s with framer := .idle, ended := s.ended ++ [.abandoned] }

/-- `raise TransportError(e)`, the block's one exception (60_exceptions.md R142, R148): deliver `Err(e)`, `e` unchanged,
and go to Idle. Nothing is saved and control goes nowhere, so the return from it is the next call (R150). -/
def raiseTransportError (e : TransportError) (s : State) : State := deliver (resultOf (.err e)) s

/-- `present(cmd)` (10_state.md R31): from Idle, invoke the command's transaction exactly once and be in flight.
There is no such step in flight (70_reset_and_hazards.md R176). -/
def present (i : Instr) (s : State) : Step :=
  match s.framer with
  | .idle => .next { busTransaction (encode i) s with framer := .inFlight i }
  | .inFlight _ => .refused .callInFlight

/-- How a command in flight ends when the bus device gives the outcome (10_state.md R31, the four cases). -/
def finish (i : Instr) (o : BusOutcome) (s : State) : Step :=
  match i, o with
  | .readFrame _ n, .ok rd =>
    if rd.length = n then .next (deliver (resultOf (.ok rd)) (fillBuffer rd s)) else .fault .busContractBroken
  | .readFrame _ n, .err e => .next (raiseTransportError e (spoilBuffer n s))
  | .writeFrame _ _, .ok rd => .next (deliver (resultOf (.ok rd)) s)
  | .writeFrame _ _, .err e => .next (raiseTransportError e s)

/-- `complete(outcome)` (10_state.md R31): only in flight. -/
def complete (o : BusOutcome) (s : State) : Step :=
  match s.framer with
  | .idle => .refused .noCallInFlight
  | .inFlight i => finish i o s

/-- What becomes of a command in flight when it is cancelled (60_exceptions.md R153): a read buffer is `any(L)`, no
result is delivered, nothing further is sent. -/
def dropCall (i : Instr) (s : State) : State :=
  match i with
  | .readFrame _ n => abandon (spoilBuffer n s)
  | .writeFrame _ _ => abandon s

/-- `cancel` (10_state.md R31, 60_exceptions.md R153): only in flight. -/
def cancel (s : State) : Step :=
  match s.framer with
  | .idle => .refused .noCallInFlight
  | .inFlight i => .next (dropCall i s)

/-- A reset of the block (70_reset_and_hazards.md R170, R171): a call in flight is treated as cancelled; Idle stays
Idle; the bus device and the chip are not touched. -/
def resetFramer (s : State) : State :=
  match s.framer with
  | .idle => s
  | .inFlight i => dropCall i s

/-- Let the bus device act on the transaction just invoked (20_memory.md R50): if it answers at once the call
completes; otherwise it stays in flight. -/
def busResponds (s : State) : Step :=
  match s.answers with
  | [] => .next s
  | .later :: rest => .next { s with answers := rest }
  | .atOnce o :: rest => complete o { s with answers := rest }

end Sys2Proof.Machine
end

