-- ==== Sys2Proof/Machine/ReadFrame.lean ====
section
/-! DEFINITION. The meaning of `readFrame` (40_read_frame.md). -/

namespace Sys2Proof.Machine

/-- `readFrame(address, buffer)` with `len = len(buffer)` (40_read_frame.md R100): one transaction
`[Write([0x0F, hi, lo]), Read(len)]`; when the bus device answers, `buffer <- rd` and `Ok(())`, or `buffer <- any(len)`
and `Err(e)`. Until it answers the call is in flight (10_state.md R24). -/
def execReadFrame (address : Address) (len : Nat) (s : State) : Step :=
  andThen (present (.readFrame address len) s) busResponds

end Sys2Proof.Machine
end

