-- ==== Sys2Proof/Machine/WriteFrame.lean ====
section
/-! DEFINITION. The meaning of `writeFrame` (41_write_frame.md). -/

namespace Sys2Proof.Machine

/-- `writeFrame(address, data)` (41_write_frame.md R120): one transaction `[Write([0xF0, hi, lo]), Write(data)]`; when
the bus device answers, `Ok(())` or `Err(e)`. Until it answers the call is in flight (10_state.md R24). -/
def execWriteFrame (address : Address) (data : List Byte) (s : State) : Step :=
  andThen (present (.writeFrame address data) s) busResponds

end Sys2Proof.Machine
end

