-- ==== Sys2Proof/Machine/Dispatch.lean ====
section
/-! DEFINITION. One arm per operation of opcode_table.json. -/

namespace Sys2Proof.Machine

/-- What a command does at a state (10_state.md R31, the big-step reading, with the bus device's answer read from the
state). -/
def exec (i : Instr) (s : State) : Host.Outcome State Fault Refusal :=
  match i with
  | .readFrame address len => Sys2Proof.Machine.execReadFrame address len s
  | .writeFrame address data => Sys2Proof.Machine.execWriteFrame address data s

end Sys2Proof.Machine
end

