-- ==== Sys2Proof/Machine/Events.lean ====
section
/-! DEFINITION. What each input does when it lands, and how a table word is presented as a call. -/

namespace Sys2Proof.Machine

/-- One event reaches the block. -/
def onEvent (e : Event) (s : State) : Step :=
  match e with
  | .present c => exec (commandOfCall c) (lend c s)
  | .complete o => complete o s
  | .cancel => cancel s
  | .reset => .next (resetFramer s)
  | .setBuffer bytes => if bufferInUse s then .refused .operandInUse else .next { s with buffer := bytes }
  | .readBuffer => if bufferInUse s then .refused .operandInUse else .next s
  | .setData bytes => if dataInUse s then .refused .operandInUse else .next { s with data := bytes }

/-- The inputs with a call of the table word's command put before them; a word that is no command presents nothing
(30_encoding.md R76; log entry 8). -/
def presentWord (nbits w : Nat) (inputs : List Event) : List Event :=
  match decodeTableWord nbits w with
  | some i => .present (callOfCommand i) :: inputs
  | none => inputs

end Sys2Proof.Machine
end

