-- ==== Sys2Proof/Machine/Step.lean ====
section
/-! DEFINITION. One step: the next input lands. -/

namespace Sys2Proof.Machine

/-- One step of the machine. With no input nothing happens: an idle block has nothing to do (60_exceptions.md R158)
and a call in flight stays in flight (70_reset_and_hazards.md R184). -/
def step (s : State) : Host.Outcome State Fault Refusal :=
  match s.inputs with
  | [] => .next s
  | e :: rest => onEvent e { s with inputs := rest }

/-- `s` with the table word's command presented next by the caller (log entry 8). -/
def State.withFetchWord (s : State) (nbits w : Nat) : State :=
  { s with inputs := presentWord nbits w s.inputs }

end Sys2Proof.Machine
end

