-- ==== Sys2Proof/Safety.lean ====
section
/-! DEFINITION. The terms claims are stated in: what the bus device's contract asks, the invariant of the machine, the
relation of 10_state.md R31, serialised calls, and the two renamings under which the machine must not change. -/

namespace Sys2Proof.Machine

/-- `k` steps of the machine, stopping at the first stop (the host's `Core.run` of this machine, with its types plain). -/
def run : Nat → State → Step
  | 0, s => .next s
  | k + 1, s =>
    match step s with
    | .next t => run k t
    | .fault x => .fault x
    | .refused x => .refused x

/-- The bus device's next answer, if it comes at once, keeps its contract for this command (20_memory.md R48). -/
def busKeepsContract (i : Instr) (s : State) : Bool :=
  match s.answers with
  | .atOnce o :: _ => o.fits i
  | .later :: _ => true
  | [] => true

/-- The bus device does not answer at once, so a call presented now stays in flight. -/
def answersLater (s : State) : Prop := s.answers = [] ∨ ∃ rest, s.answers = .later :: rest

/-- One while a call is in flight, zero when Idle. -/
def callsInFlight (s : State) : Nat :=
  match s.framer with
  | .idle => 0
  | .inFlight _ => 1

/-- What a call in flight holds: its transaction is the last one invoked (10_state.md R24, R31), a read holds the
caller's buffer, of length L (R23), and a write the caller's data as it stands (41_write_frame.md R127). -/
def heldByCall (s : State) : Prop :=
  match s.framer with
  | .idle => True
  | .inFlight i =>
    s.log.getLast? = some (encode i) ∧
    match i with
    | .readFrame _ n => s.buffer.length = n
    | .writeFrame _ d => s.data = d

/-- The invariant every step keeps: what a call in flight holds; every transaction issued has one of the two shapes
(20_memory.md R49); and each transaction issued has exactly one ending, but for the one still in flight
(40_read_frame.md R106, 41_write_frame.md R126, 60_exceptions.md R149). -/
structure Inv (s : State) : Prop where
  held : heldByCall s
  shapes : ∀ segs ∈ s.log, transactionWf segs = true
  endings : s.log.length = s.ended.length + callsInFlight s

/-- What the step relation of 10_state.md R31 speaks of: the framer, the caller's two sequences, and what has crossed
the two ports. -/
structure View where
  framer : Framer
  buffer : List Byte
  data : List Byte
  log : List (List Segment)
  ended : List Ending
  deriving DecidableEq, Repr

/-- The view of a state. -/
def viewOf (s : State) : View := ⟨s.framer, s.buffer, s.data, s.log, s.ended⟩

/-- The step relation of 10_state.md R31, line by line; `any(L)` is any byte sequence of length L. -/
inductive FramerStep : View → View → Prop where
  | present (v : View) (i : Instr) (idle : v.framer = .idle) :
      FramerStep v { v with log := v.log ++ [encode i], framer := .inFlight i }
  | readOk (v : View) (a : Address) (rd : List Byte) (busy : v.framer = .inFlight (.readFrame a rd.length)) :
      FramerStep v { v with buffer := rd, ended := v.ended ++ [.delivered .ok], framer := .idle }
  | readErr (v : View) (a : Address) (e : TransportError) (any : List Byte)
      (busy : v.framer = .inFlight (.readFrame a any.length)) :
      FramerStep v { v with buffer := any, ended := v.ended ++ [.delivered (.err e)], framer := .idle }
  | writeOk (v : View) (a : Address) (d : List Byte) (busy : v.framer = .inFlight (.writeFrame a d)) :
      FramerStep v { v with ended := v.ended ++ [.delivered .ok], framer := .idle }
  | writeErr (v : View) (a : Address) (d : List Byte) (e : TransportError)
      (busy : v.framer = .inFlight (.writeFrame a d)) :
      FramerStep v { v with ended := v.ended ++ [.delivered (.err e)], framer := .idle }
  | cancelRead (v : View) (a : Address) (any : List Byte) (busy : v.framer = .inFlight (.readFrame a any.length)) :
      FramerStep v { v with buffer := any, ended := v.ended ++ [.abandoned], framer := .idle }
  | cancelWrite (v : View) (a : Address) (d : List Byte) (busy : v.framer = .inFlight (.writeFrame a d)) :
      FramerStep v { v with ended := v.ended ++ [.abandoned], framer := .idle }

/-- What the caller may do to its own sequences (70_reset_and_hazards.md R182): set one that no call in flight holds.
The framer and the ports are not touched. -/
inductive CallerMove : View → View → Prop where
  | none (v : View) : CallerMove v v
  | buffer (v : View) (bytes : List Byte) (free : ∀ a n, v.framer ≠ .inFlight (.readFrame a n)) :
      CallerMove v { v with buffer := bytes }
  | data (v : View) (bytes : List Byte) (free : ∀ a d, v.framer ≠ .inFlight (.writeFrame a d)) :
      CallerMove v { v with data := bytes }

/-- A call and the outcome its transaction has. -/
structure Exchange where
  call : Call
  outcome : BusOutcome
  deriving DecidableEq, Repr

/-- The events of serialised calls: each command is presented only after the previous call has ended
(70_reset_and_hazards.md R175). -/
def serialised (xs : List Exchange) : List Event :=
  xs.flatMap fun x => [.present x.call, .complete x.outcome]

/-- The state with an older history put before what its two ports have seen. -/
def withPast (oldLog : List (List Segment)) (oldEnded : List Ending) (s : State) : State :=
  { s with log := oldLog ++ s.log, ended := oldEnded ++ s.ended }

/-- A bus outcome with its error value renamed. -/
def renameOutcome (f : TransportError → TransportError) : BusOutcome → BusOutcome
  | .ok rd => .ok rd
  | .err e => .err (f e)

/-- A result with its error value renamed. -/
def renameResult (f : TransportError → TransportError) : Result → Result
  | .ok => .ok
  | .err e => .err (f e)

/-- An event with its error value renamed. -/
def renameEvent (f : TransportError → TransportError) : Event → Event
  | .complete o => .complete (renameOutcome f o)
  | .present c => .present c
  | .cancel => .cancel
  | .reset => .reset
  | .setBuffer bytes => .setBuffer bytes
  | .readBuffer => .readBuffer
  | .setData bytes => .setData bytes

/-- An answer with its error value renamed. -/
def renameAnswer (f : TransportError → TransportError) : Answer → Answer
  | .atOnce o => .atOnce (renameOutcome f o)
  | .later => .later

/-- An ending with its error value renamed. -/
def renameEnding (f : TransportError → TransportError) : Ending → Ending
  | .delivered r => .delivered (renameResult f r)
  | .abandoned => .abandoned

/-- A state with every error value in it renamed by `f`. -/
def renameErrors (f : TransportError → TransportError) (s : State) : State :=
  { s with
    inputs := s.inputs.map (renameEvent f)
    answers := s.answers.map (renameAnswer f)
    ended := s.ended.map (renameEnding f) }

/-- An answer of the machine with its next state changed by `g`; a stop stays the same stop. -/
def mapNext (g : State → State) : Step → Step
  | .next s => .next (g s)
  | .fault x => .fault x
  | .refused x => .refused x

end Sys2Proof.Machine
end

