-- ==== Sys2Proof/Certificates/Slice0/Obligations.lean ====
section
/-! DEFINITION. The statements for the provers. Each docstring names the rule of the spec it rests on; where the rule
is one of the spec's own decisions (92_eei_decisions.md), or a choice of this model, the docstring says so. -/

open Sys2Proof Sys2Proof.Machine

-- The frame and its encoding

/-- 30_encoding.md R73: the header is the opcode, then the address shifted right by 8 and masked, then the address
masked; it depends on nothing else of the command; and the two boundary addresses. -/
def Obligations.HeaderIsOpcodeThenHighByteThenLowByte : Prop :=
  (∀ i : Instr, (headerOf i).map BitVec.toNat =
    [if i.op = .read then 0x0F else 0xF0, (i.address.toNat >>> 8) &&& 0xFF, i.address.toNat &&& 0xFF]) ∧
  (∀ op a, (header op a).map BitVec.toNat =
    [if op = .read then 0x0F else 0xF0, (a.toNat >>> 8) &&& 0xFF, a.toNat &&& 0xFF]) ∧
  (∀ op, header op 0x0000#16 = [opcodeByte op, 0x00#8, 0x00#8]) ∧
  (∀ op, header op 0xFFFF#16 = [opcodeByte op, 0xFF#8, 0xFF#8])

/-- 30_encoding.md R71: three bytes; as the 24-bit number H the header is opcode * 65536 + address, with the opcode in
H[23:16], address[15:8] in H[15:8] and address[7:0] in H[7:0], so no other field has a bit left; byte by byte it is the
opcode, the high address byte and the low one; and the opcode is the first byte transmitted. -/
def Obligations.HeaderAsNumberHasThreeFields : Prop :=
  (∀ i : Instr, (wireOut (encode i))[0]? = some (opcodeByte i.op)) ∧
  ∀ (op : Op) (a : Address),
    (header op a).length = 3 ∧
    numberOfBytes (header op a) = (opcodeByte op).toNat * 65536 + a.toNat ∧
    numberOfBytes (header op a) / 65536 = (if op = .read then 0x0F else 0xF0) ∧
    numberOfBytes (header op a) / 256 % 256 = a.toNat / 256 ∧
    numberOfBytes (header op a) % 256 = a.toNat % 256 ∧
    (header op a)[0]? = some (opcodeByte op) ∧
    (header op a)[1]? = some (BitVec.ofNat 8 (a.toNat / 256)) ∧
    (header op a)[2]? = some (BitVec.ofNat 8 (a.toNat % 256))

/-- 30_encoding.md R72: the two opcode values, each the bitwise complement of the other, used whole: the first header
byte is one of them and depends on nothing but the operation. -/
def Obligations.OpcodeBytesAreTheTwoConstants : Prop :=
  opcodeByte .read = 0x0F#8 ∧ opcodeByte .write = 0xF0#8 ∧
  opcodeByte .read = ~~~ opcodeByte .write ∧ opcodeByte .write = ~~~ opcodeByte .read ∧
  (∀ i : Instr, (headerOf i).head? = some (opcodeByte i.op))

/-- 30_encoding.md section 4 (the arithmetic laws, which the spec derives): the split of an address loses nothing. -/
def Obligations.AddressSplitLosesNothing : Prop :=
  ∀ a : Address,
    (addrHi a).toNat ≤ 255 ∧ (addrLo a).toNat ≤ 255 ∧
    (addrHi a).toNat * 256 + (addrLo a).toNat = a.toNat ∧
    (a.toNat >>> 8) &&& 0xFF = a.toNat >>> 8 ∧
    joinAddr (addrHi a) (addrLo a) = a

/-- 30_encoding.md section 2 (decoding a header, which the spec derives): three bytes decode to an operation and an
address exactly when they are the header of those two. -/
def Obligations.HeaderDecodesExactlyWhenEncoded : Prop :=
  ∀ (b0 b1 b2 : Byte) (op : Op) (a : Address),
    decodeHeader b0 b1 b2 = some (op, a) ↔ [b0, b1, b2] = header op a

/-- 95_test_vectors.md section 2.1, the laws: headers are equal only if the operations and the addresses are. -/
def Obligations.HeaderIsInjective : Prop :=
  ∀ (op op' : Op) (a a' : Address), header op a = header op' a' → op = op' ∧ a = a'

/-- 30_encoding.md section 2: the decoder is total. It rejects every first byte but the two opcodes (the spec's own
decision D18), and it rejects fewer than three bytes by a name of its own, which is the model's reading (log entry 15,
DEDUCED; the spec's `decode_hdr` takes exactly three bytes). -/
def Obligations.DecoderRejectsEverythingElse : Prop :=
  (∀ (b0 b1 b2 : Byte) (rest : List Byte), b0 ≠ 0x0F#8 → b0 ≠ 0xF0#8 →
    decode (b0 :: b1 :: b2 :: rest) = .rejected (.notAFrame b0)) ∧
  (∀ bs : List Byte, bs.length < 3 → decode bs = .rejected (.shortHeader bs.length))

/-- Decode and encode agree on whole frames: the frame of any command, with any payload the chip may return for a read,
decodes to that command. The decoding of a whole frame is log entry 15 (DEDUCED). -/
def Obligations.EncodedFrameDecodesToItsCommand : Prop :=
  ∀ (i : Instr) (received : List Byte), (BusOutcome.ok received).fits i = true →
    decode (encodeFrame i received) = .instr i

/-- The other direction: every byte sequence the decoder accepts is the frame of the command it gives (log entry
15, DEDUCED). -/
def Obligations.DecodedFrameIsTheFrameOfItsCommand : Prop :=
  ∀ (bs : List Byte) (i : Instr), decode bs = .instr i →
    ∃ received, (BusOutcome.ok received).fits i = true ∧ bs = encodeFrame i received

/-- Decode and encode agree on segment lists: a list is read back as a command exactly when it is that command's
transaction (30_encoding.md R75, whose two-segment form is the spec's decisions D13 and D27). -/
def Obligations.SegmentsDecodeExactlyWhenEncoded : Prop :=
  ∀ (segs : List Segment) (i : Instr), decodeSegments segs = some i ↔ segs = encode i

/-- 30_encoding.md section 1: a frame is 3 + L bytes, whatever the chip returned, and the transaction moves that many
bytes; there is no length byte, trailer, checksum or dummy byte. -/
def Obligations.FrameIsThreePlusLBytes : Prop :=
  ∀ (i : Instr) (received : List Byte), (BusOutcome.ok received).fits i = true →
    (encodeFrame i received).length = 3 + i.len ∧
    3 ≤ (encodeFrame i received).length ∧
    (wireOut (encode i)).length + wireIn (encode i) = 3 + i.len

/-- 20_memory.md section 5 and 30_encoding.md section 1: outbound bytes in time order are the opcode, the high address
byte, the low address byte and then, for a write, the data in its own order, unchanged; for a read L bytes come in. -/
def Obligations.WireCarriesHeaderThenPayloadInOrder : Prop :=
  (∀ (a : Address) (d : List Byte),
    wireOut (encode (.writeFrame a d)) = [0xF0#8, BitVec.ofNat 8 (a.toNat / 256), BitVec.ofNat 8 (a.toNat % 256)] ++ d ∧
    wireIn (encode (.writeFrame a d)) = 0) ∧
  (∀ (a : Address) (n : Nat),
    wireOut (encode (.readFrame a n)) = [0x0F#8, BitVec.ofNat 8 (a.toNat / 256), BitVec.ofNat 8 (a.toNat % 256)] ∧
    wireIn (encode (.readFrame a n)) = n)

/-- Sanity: headers written out in 95_test_vectors.md sections 2.1 and 2.2, and the wire of V-W1 in its section 2.4,
decode to the operation and the address that file gives. That a capture of the header alone is a call with L = 0, and
that the byte after V-W1's header is its data, is the model's decoding of a whole frame (log entry 15, DEDUCED). -/
def Obligations.WrittenOutWordsDecodeAsTheSpecSays : Prop :=
  decode [0x0F#8, 0x12#8, 0x34#8] = .instr (.readFrame 0x1234#16 0) ∧
  decode [0xF0#8, 0xFF#8, 0xFF#8] = .instr (.writeFrame 0xFFFF#16 []) ∧
  decode [0x0F#8, 0xF0#8, 0xF0#8] = .instr (.readFrame 0xF0F0#16 0) ∧
  decode [0xF0#8, 0x00#8, 0x01#8, 0x01#8] = .instr (.writeFrame 0x0001#16 [0x01#8]) ∧
  decode [0x00#8, 0x00#8, 0x00#8] = .rejected (.notAFrame 0x00#8) ∧
  decode [0x1F#8, 0x12#8, 0x34#8] = .rejected (.notAFrame 0x1F#8)

/-- opcode_table.json, on every 24-bit word: it decodes to a row's command exactly when its bits 23:16 are the value
the row fixes them at (15 for `readFrame`, 240 for `writeFrame`), and then bits 15:0 are the address. The table gives the
payload no bits; that such a word is read as the command with L = 0, or with no data, is the model's choice (log
entry 8). -/
def Obligations.TableWordsDecodeToTheirRows : Prop :=
  ∀ (w : BitVec 24) (i : Instr),
    decodeTableWord 24 w.toNat = some i ↔
      (w.extractLsb' 16 8 = 15#8 ∧ i = .readFrame (w.extractLsb' 0 16) 0) ∨
      (w.extractLsb' 16 8 = 240#8 ∧ i = .writeFrame (w.extractLsb' 0 16) [])

-- A step runs a command

/-- A step whose next input is a call runs that call's command, with the caller's buffer or data lent and the input
taken; what the step adds around `exec` is these two things (log entry 4: the model's form of the upstream port). -/
def Obligations.StepRunsThePresentedCall : Prop :=
  ∀ (s : State) (c : Call) (rest : List Event), s.inputs = .present c :: rest →
    step s = exec (commandOfCall c) (lend c { s with inputs := rest })

/-- A step after a table word has been placed runs the command the word decodes to, on the caller's buffer or data
that goes with it; a word that is no command presents nothing (log entry 8: the model's choice). -/
def Obligations.StepRunsTheDecodedWord : Prop :=
  (∀ (s : State) (nbits w : Nat) (i : Instr), decodeTableWord nbits w = some i →
    step (s.withFetchWord nbits w) = exec i (lend (callOfCommand i) s)) ∧
  (∀ (s : State) (nbits w : Nat), decodeTableWord nbits w = none → s.withFetchWord nbits w = s)

-- The two operations

/-- 40_read_frame.md R100, the whole pseudocode, from Idle: one transaction `[Write([0x0F, hi, lo]), Read(L)]`; on
`Ok(rd)`, with `len(rd) = L`, the buffer is `rd` and the result `Ok(())`; on `Err(e)` the buffer is some L bytes and the
result is `Err(e)`. The outcome is taken at once, or, when the bus device answers later, the call is in flight until
`complete` brings it. Nothing else changes. (R100 itself speaks of the in-flight marker and of `any(L)`, the spec's
decisions D2 and D14; which L bytes `any(L)` is, no statement says: log entry 2.) -/
def Obligations.ReadFrameRunsItsPseudocode : Prop :=
  ∀ (s : State) (a : Address) (n : Nat), s.framer = .idle →
    let segs : List Segment :=
      [.write [0x0F#8, BitVec.ofNat 8 ((a.toNat >>> 8) &&& 0xFF), BitVec.ofNat 8 (a.toNat &&& 0xFF)], .read n]
    (∀ rd rest, s.answers = .atOnce (.ok rd) :: rest → rd.length = n →
      exec (.readFrame a n) s = .next { s with
        answers := rest, log := s.log ++ [segs], buffer := rd, ended := s.ended ++ [.delivered .ok] }) ∧
    (∀ e rest, s.answers = .atOnce (.err e) :: rest →
      ∃ any : List Byte, any.length = n ∧ exec (.readFrame a n) s = .next { s with
        answers := rest, log := s.log ++ [segs], buffer := any, draws := s.draws + 1,
        ended := s.ended ++ [.delivered (.err e)] }) ∧
    (answersLater s → ∃ t,
      exec (.readFrame a n) s = .next t ∧
      t = { s with answers := s.answers.tail, log := s.log ++ [segs], framer := .inFlight (.readFrame a n) } ∧
      (∀ rd, rd.length = n → complete (.ok rd) t = .next { t with
        framer := .idle, buffer := rd, ended := s.ended ++ [.delivered .ok] }) ∧
      (∀ e, ∃ any : List Byte, any.length = n ∧ complete (.err e) t = .next { t with
        framer := .idle, buffer := any, draws := s.draws + 1, ended := s.ended ++ [.delivered (.err e)] }))

/-- 41_write_frame.md R120, the whole pseudocode, from Idle: one transaction `[Write([0xF0, hi, lo]), Write(data)]`; on
`Ok(_)` the result is `Ok(())`, on `Err(e)` it is `Err(e)`. The outcome is taken at once, or, when the bus device answers
later, the call is in flight until `complete` brings it. Nothing else changes, neither the data nor the caller's read
buffer. -/
def Obligations.WriteFrameRunsItsPseudocode : Prop :=
  ∀ (s : State) (a : Address) (d : List Byte), s.framer = .idle →
    let segs : List Segment :=
      [.write [0xF0#8, BitVec.ofNat 8 ((a.toNat >>> 8) &&& 0xFF), BitVec.ofNat 8 (a.toNat &&& 0xFF)], .write d]
    (∀ rd rest, s.answers = .atOnce (.ok rd) :: rest →
      exec (.writeFrame a d) s = .next { s with
        answers := rest, log := s.log ++ [segs], ended := s.ended ++ [.delivered .ok] }) ∧
    (∀ e rest, s.answers = .atOnce (.err e) :: rest →
      exec (.writeFrame a d) s = .next { s with
        answers := rest, log := s.log ++ [segs], ended := s.ended ++ [.delivered (.err e)] }) ∧
    (answersLater s → ∃ t,
      exec (.writeFrame a d) s = .next t ∧
      t = { s with answers := s.answers.tail, log := s.log ++ [segs], framer := .inFlight (.writeFrame a d) } ∧
      (∀ rd, complete (.ok rd) t = .next { t with
        framer := .idle, ended := s.ended ++ [.delivered .ok] }) ∧
      (∀ e, complete (.err e) t = .next { t with
        framer := .idle, ended := s.ended ++ [.delivered (.err e)] }))

/-- Frame of `readFrame`, in every form: what it leaves unchanged when it answers a next state. It changes the framer,
the caller's read buffer, the answers the bus device has given, the free-value counter and the record of its two ports;
the record only grows, by one transaction and at most one ending; that the buffer still holds the lent bytes while the
call is in flight is 10_state.md section 5, whose `present` writes no buffer (log entry 9). -/
def Obligations.ReadFrameLeavesTheRestUnchanged : Prop :=
  ∀ (s t : State) (a : Address) (n : Nat), exec (.readFrame a n) s = .next t →
    t.data = s.data ∧ t.inputs = s.inputs ∧ t.answers = s.answers.tail ∧
    t.log = s.log ++ [encode (.readFrame a n)] ∧
    (t.framer = .idle ∧ t.buffer.length = n ∧ (∃ r, t.ended = s.ended ++ [.delivered r]) ∨
     t.framer = .inFlight (.readFrame a n) ∧ t.buffer = s.buffer ∧ t.draws = s.draws ∧ t.ended = s.ended)

/-- Frame of `writeFrame`, in every form: what it leaves unchanged when it answers a next state. The caller's read
buffer, its data and the free-value counter are among it. -/
def Obligations.WriteFrameLeavesTheRestUnchanged : Prop :=
  ∀ (s t : State) (a : Address) (d : List Byte), exec (.writeFrame a d) s = .next t →
    t.buffer = s.buffer ∧ t.data = s.data ∧ t.inputs = s.inputs ∧ t.draws = s.draws ∧
    t.answers = s.answers.tail ∧ t.log = s.log ++ [encode (.writeFrame a d)] ∧
    (t.framer = .idle ∧ (∃ r, t.ended = s.ended ++ [.delivered r]) ∨
     t.framer = .inFlight (.writeFrame a d) ∧ t.ended = s.ended)

/-- 20_memory.md section 1, 40_read_frame.md and 41_write_frame.md (no operand is rejected): both operations, at every
address, every length and every data, complete exactly when the framer is Idle and the bus device, if it answers at
once, keeps its contract (log entry 3: the model's choice to stop where it does not). -/
def Obligations.ExecCompletesForEveryOperand : Prop :=
  ∀ (i : Instr) (s : State), (∃ t, exec i s = .next t) ↔ s.framer = .idle ∧ busKeepsContract i s = true

/-- 40_read_frame.md R101 and 41_write_frame.md R121: presented to an idle framer, a call with any address, any buffer
and any data is accepted and issues its transaction; L is the length of the buffer or of the data, so the number of bytes
requested and the room to hold them cannot disagree. -/
def Obligations.AnyAddressAndLengthIsAccepted : Prop :=
  (∀ (s : State) (a : Address) (buffer : List Byte) (more : List Event),
    s.framer = .idle → s.inputs = .present (.read a buffer) :: more →
    busKeepsContract (.readFrame a buffer.length) s = true →
    ∃ t, step s = .next t ∧ t.log = s.log ++ [[.write (header .read a), .read buffer.length]] ∧
      t.buffer.length = buffer.length) ∧
  (∀ (s : State) (a : Address) (data : List Byte) (more : List Event),
    s.framer = .idle → s.inputs = .present (.write a data) :: more →
    ∃ t, step s = .next t ∧ t.log = s.log ++ [[.write (header .write a), .write data]] ∧ t.data = data)

/-- When `exec` stops: with the one refusal exactly while a call is in flight (the spec's decision D5), with the one
fault exactly when the bus device breaks its contract at once (log entry 3, the model's choice); nothing else can stop a
command. -/
def Obligations.ExecStopsOnlyForTwoReasons : Prop :=
  ∀ (i : Instr) (s : State),
    (∀ r, exec i s = .refused r ↔ (∃ c, s.framer = .inFlight c) ∧ r = .callInFlight) ∧
    (∀ f, exec i s = .fault f ↔ s.framer = .idle ∧ busKeepsContract i s = false ∧ f = .busContractBroken)

/-- 40_read_frame.md section readFrame (R106) and 41_write_frame.md section writeFrame (R126; the two segments of a write
are the spec's decision D27): presenting a command invokes the bus device's transaction exactly once, with both segments
in that one invocation, whatever the outcome. An outcome, a cancel (60_exceptions.md section 4, R153, decision D6) and a
reset (70_reset_and_hazards.md section 1, R171, decision D7) invoke nothing. -/
def Obligations.OneTransactionPerCall : Prop :=
  (∀ (i : Instr) (s t : State), exec i s = .next t → t.log = s.log ++ [encode i] ∧ (encode i).length = Config.nSeg) ∧
  (∀ (o : BusOutcome) (s t : State), complete o s = .next t → t.log = s.log) ∧
  (∀ (s t : State), cancel s = .next t → t.log = s.log) ∧
  (∀ s : State, (resetFramer s).log = s.log)

/-- 40_read_frame.md and 41_write_frame.md, zero length (the spec's decision D13): the call is not optimised away; the
transaction has two segments, the second empty, and the frame is the three header bytes. -/
def Obligations.ZeroLengthCallStillTransacts : Prop :=
  ∀ (s t : State) (a : Address),
    (exec (.readFrame a 0) s = .next t →
      t.log = s.log ++ [[.write (header .read a), .read 0]] ∧ (encodeFrame (.readFrame a 0) []).length = 3) ∧
    (exec (.writeFrame a []) s = .next t →
      t.log = s.log ++ [[.write (header .write a), .write []]] ∧ (encodeFrame (.writeFrame a []) []).length = 3)

/-- 41_write_frame.md R124: a write issued again with the same operands sends the same transaction again, header and all
the data, whatever happened the first time; each call is one attempt with its own result. -/
def Obligations.ReissuedWriteSendsTheWholeFrameAgain : Prop :=
  ∀ (s : State) (a : Address) (d : List Byte) (o o' : BusOutcome) (rest : List Answer),
    s.framer = .idle → s.answers = .atOnce o :: .atOnce o' :: rest →
    ∃ t u, exec (.writeFrame a d) s = .next t ∧ exec (.writeFrame a d) t = .next u ∧
      t.log = s.log ++ [encode (.writeFrame a d)] ∧ t.ended = s.ended ++ [.delivered (resultOf o)] ∧
      u.log = t.log ++ [encode (.writeFrame a d)] ∧ u.ended = t.ended ++ [.delivered (resultOf o')] ∧
      wireOut (encode (.writeFrame a d)) = header .write a ++ d

/-- 20_memory.md section 5 (no caching): a read repeated at the same address issues its own transaction and holds what
that one received, whatever the first received. -/
def Obligations.RepeatedReadIsNotAnsweredFromTheFirst : Prop :=
  ∀ (s : State) (a : Address) (rd rd' : List Byte) (rest : List Answer),
    s.framer = .idle → s.answers = .atOnce (.ok rd) :: .atOnce (.ok rd') :: rest → rd'.length = rd.length →
    ∃ t u, exec (.readFrame a rd.length) s = .next t ∧ exec (.readFrame a rd.length) t = .next u ∧
      t.buffer = rd ∧ u.buffer = rd' ∧
      u.log = s.log ++ [encode (.readFrame a rd.length), encode (.readFrame a rd.length)]

/-- 30_encoding.md section 4 (control transfer): what a call does next depends on no byte of its data and no address.
Two commands of one operation and one length, at any two addresses and with any data, run from one state, end in the
same way and leave the same framer state but for the operands a call in flight holds. That the read buffer is the same
after a failed read at another address is the model's (log entry 2: both runs draw the same `any(L)`); of a failed read
the spec fixes the length of the buffer only. -/
def Obligations.SequencingIgnoresAddressAndPayload : Prop :=
  ∀ (i j : Instr) (s t : State), i.op = j.op → i.len = j.len → exec i s = .next t →
    ∃ u, exec j s = .next u ∧ u.ended = t.ended ∧ u.answers = t.answers ∧ u.inputs = t.inputs ∧
      u.buffer = t.buffer ∧ u.data = t.data ∧ u.draws = t.draws ∧
      (t.framer = .idle ∧ u.framer = .idle ∨ t.framer = .inFlight i ∧ u.framer = .inFlight j)

-- How a call ends

/-- 10_state.md section 5 (the step relation, which is the spec's rendering, decisions D2 and D6): the step that brings
the outcome of the call in flight, its four cases. -/
def Obligations.OutcomeEndsTheCallInFlight : Prop :=
  ∀ (s : State) (rest : List Event) (o : BusOutcome), s.inputs = .complete o :: rest →
    (∀ a rd, s.framer = .inFlight (.readFrame a rd.length) → o = .ok rd →
      step s = .next { s with
        inputs := rest, framer := .idle, buffer := rd, ended := s.ended ++ [.delivered .ok] }) ∧
    (∀ a n e, s.framer = .inFlight (.readFrame a n) → o = .err e →
      ∃ any : List Byte, any.length = n ∧ step s = .next { s with
        inputs := rest, framer := .idle, buffer := any, draws := s.draws + 1,
        ended := s.ended ++ [.delivered (.err e)] }) ∧
    (∀ a d rd, s.framer = .inFlight (.writeFrame a d) → o = .ok rd →
      step s = .next { s with inputs := rest, framer := .idle, ended := s.ended ++ [.delivered .ok] }) ∧
    (∀ a d e, s.framer = .inFlight (.writeFrame a d) → o = .err e →
      step s = .next { s with inputs := rest, framer := .idle, ended := s.ended ++ [.delivered (.err e)] })

/-- 60_exceptions.md section 1 (R142): for every command and every error value `e` of the bus device, the call delivers
exactly `Err(e)` and the framer goes to Idle, once, with no further transaction; whether the bus device answers at once
or later. And no error is interpreted: another error value changes the delivered value and nothing else. That the bytes
of a failed read's buffer are the same under the other error is the model's (log entry 2: both runs draw the same
`any(L)`); of them the spec fixes the length only. -/
def Obligations.ErrorIsDeliveredUnchanged : Prop :=
  (∀ (i : Instr) (e : TransportError) (rest : List Answer) (s : State),
    s.framer = .idle → s.answers = .atOnce (.err e) :: rest →
    ∃ t, exec i s = .next t ∧ t.framer = .idle ∧ t.ended = s.ended ++ [.delivered (.err e)] ∧
      t.log = s.log ++ [encode i]) ∧
  (∀ (i : Instr) (e : TransportError) (s : State), s.framer = .inFlight i →
    ∃ t, complete (.err e) s = .next t ∧ t.framer = .idle ∧ t.ended = s.ended ++ [.delivered (.err e)] ∧
      t.log = s.log) ∧
  (∀ (e e' : TransportError) (s t : State), complete (.err e) s = .next t →
    complete (.err e') s = .next { t with ended := s.ended ++ [.delivered (.err e')] })

/-- 40_read_frame.md R102: on success the buffer holds exactly the L bytes received, in order, byte by byte, its length
is that of the buffer lent with the call, and the result is `Ok(())`; for every L bytes the bus device may return, at
once or later. -/
def Obligations.SuccessfulReadFillsTheBufferInOrder : Prop :=
  (∀ (s : State) (a : Address) (rd : List Byte) (rest : List Answer),
    s.framer = .idle → s.answers = .atOnce (.ok rd) :: rest →
    ∃ t, exec (.readFrame a rd.length) s = .next t ∧ t.buffer.length = rd.length ∧
      (∀ k : Nat, t.buffer[k]? = rd[k]?) ∧ t.ended = s.ended ++ [.delivered .ok]) ∧
  (∀ (s : State) (a : Address) (rd : List Byte), s.framer = .inFlight (.readFrame a rd.length) →
    ∃ t, complete (.ok rd) s = .next t ∧ t.buffer.length = rd.length ∧
      (∀ k : Nat, t.buffer[k]? = rd[k]?) ∧ t.ended = s.ended ++ [.delivered .ok]) ∧
  (∀ (s : State) (a : Address) (lent rd : List Byte) (more : List Event) (rest : List Answer),
    s.framer = .idle → s.inputs = .present (.read a lent) :: more → s.answers = .atOnce (.ok rd) :: rest →
    rd.length = lent.length →
    ∃ t, step s = .next t ∧ t.buffer.length = lent.length ∧ t.buffer = rd)

/-- 60_exceptions.md section 4 (cancellation, the spec's decision D6): a call in flight that is cancelled ends without a
result, the framer is Idle, a read buffer is some L bytes, and nothing is sent. -/
def Obligations.CancelEndsTheCallWithoutResult : Prop :=
  ∀ (s : State) (rest : List Event), s.inputs = .cancel :: rest →
    (∀ a n, s.framer = .inFlight (.readFrame a n) →
      ∃ any : List Byte, any.length = n ∧ step s = .next { s with
        inputs := rest, framer := .idle, buffer := any, draws := s.draws + 1, ended := s.ended ++ [.abandoned] }) ∧
    (∀ a d, s.framer = .inFlight (.writeFrame a d) →
      step s = .next { s with inputs := rest, framer := .idle, ended := s.ended ++ [.abandoned] })

/-- 70_reset_and_hazards.md section 1 (the spec's own decision D7): a reset in flight is the cancel step; a reset when
Idle changes nothing of the block; either way the framer is Idle after it and nothing is sent. That the inputs still to
come, the bus device's answers and the record stay as they are is the model's reading (log entry 14, DEDUCED). -/
def Obligations.ResetIsCancelInFlightAndNothingWhenIdle : Prop :=
  ∀ (s : State) (rest : List Event), s.inputs = .reset :: rest →
    (∀ c, s.framer = .inFlight c → step s = step { s with inputs := .cancel :: rest }) ∧
    (s.framer = .idle → step s = .next { s with inputs := rest }) ∧
    (∃ t, step s = .next t ∧ t.framer = .idle ∧ t.log = s.log)

/-- 10_state.md section 7 (the spec's decision D7): right after reset the framer is Idle and no operand is held. That
every other field, which stands for what lies outside the block, is empty is this model's choice: `draws` (log entry 2),
`answers` (3), `inputs` (4), `buffer` and `data` (5), `log` and `ended` (6). So is that a step from there, with no input,
is a step and changes nothing (4). -/
def Obligations.ResetStateIsIdle : Prop :=
  State.reset.framer = .idle ∧
  State.reset.buffer = [] ∧ State.reset.data = [] ∧
  State.reset.inputs = [] ∧ State.reset.answers = [] ∧
  State.reset.log = [] ∧ State.reset.ended = [] ∧ State.reset.draws = 0 ∧
  step State.reset = .next State.reset

/-- 70_reset_and_hazards.md section 3 (a second call, the spec's decision D5): presented in flight, it is refused,
whichever command it is and whatever the bus device would answer: not queued, not dropped, not answered. -/
def Obligations.SecondCallInFlightIsRefused : Prop :=
  ∀ (s : State) (c : Instr) (call : Call) (rest : List Event),
    s.framer = .inFlight c → s.inputs = .present call :: rest → step s = .refused .callInFlight

/-- 10_state.md section 5 and 95_test_vectors.md V-E7, V-E8: when Idle, an outcome and a cancel have no step. -/
def Obligations.IdleHasNoCompleteOrCancel : Prop :=
  ∀ (s : State) (rest : List Event), s.framer = .idle →
    (∀ o, s.inputs = .complete o :: rest → step s = .refused .noCallInFlight) ∧
    (s.inputs = .cancel :: rest → step s = .refused .noCallInFlight)

/-- 20_memory.md section 4 (the bus device's contract) and log entry 3 (the model's choice to stop): a read of L bytes
whose success carries another number of bytes is a fault, at once or later. -/
def Obligations.WrongReadLengthIsAFault : Prop :=
  ∀ (s : State) (a : Address) (n : Nat) (rd : List Byte), rd.length ≠ n →
    (s.framer = .inFlight (.readFrame a n) → complete (.ok rd) s = .fault .busContractBroken) ∧
    (∀ rest, s.framer = .idle → s.answers = .atOnce (.ok rd) :: rest →
      exec (.readFrame a n) s = .fault .busContractBroken)

/-- 70_reset_and_hazards.md section 3 (keeping the buffers still, the spec's decision D23): the caller may touch its
sequences when no call in flight holds them, and a breach is refused. That the caller has one buffer and one data
sequence, so that the one not lent may be touched in flight and the other stays as it is, is the model's choice (log
entry 12). -/
def Obligations.TouchingALentOperandIsRefused : Prop :=
  ∀ (s : State) (bytes : List Byte) (rest : List Event) (a : Address) (n : Nat) (d : List Byte),
    (s.framer = .inFlight (.readFrame a n) →
      (s.inputs = .setBuffer bytes :: rest ∨ s.inputs = .readBuffer :: rest → step s = .refused .operandInUse) ∧
      (s.inputs = .setData bytes :: rest → step s = .next { s with inputs := rest, data := bytes })) ∧
    (s.framer = .inFlight (.writeFrame a d) →
      (s.inputs = .setData bytes :: rest → step s = .refused .operandInUse) ∧
      (s.inputs = .setBuffer bytes :: rest → step s = .next { s with inputs := rest, buffer := bytes }) ∧
      (s.inputs = .readBuffer :: rest → step s = .next { s with inputs := rest })) ∧
    (s.framer = .idle →
      (s.inputs = .setBuffer bytes :: rest → step s = .next { s with inputs := rest, buffer := bytes }) ∧
      (s.inputs = .readBuffer :: rest → step s = .next { s with inputs := rest }) ∧
      (s.inputs = .setData bytes :: rest → step s = .next { s with inputs := rest, data := bytes }))

-- The whole machine

/-- The invariant holds right after reset. -/
def Obligations.InvariantHoldsAtReset : Prop := Inv State.reset

/-- Every step from a state that meets the invariant gives a state that meets it: what a call in flight holds, the two
shapes of every transaction, and one ending for each transaction but the one in flight. -/
def Obligations.EveryStepKeepsTheInvariant : Prop :=
  ∀ s t : State, Inv s → step s = .next t → Inv t

/-- Along a run of any length from a state that meets the invariant, the number of transactions issued is the number of
calls ended plus the one in flight: no call issues two, none is skipped, and none ends twice. -/
def Obligations.RunsIssueOneTransactionPerEnding : Prop :=
  ∀ (k : Nat) (s t : State), Inv s → run k s = .next t →
    t.log.length = t.ended.length + callsInFlight t ∧ s.log.length ≤ t.log.length ∧
    (∃ newLog newEnded, t.log = s.log ++ newLog ∧ t.ended = s.ended ++ newEnded ∧
      ∀ segs ∈ newLog, transactionWf segs = true)

/-- 40_read_frame.md sections on success and failure, from a state that meets the invariant (a read in flight holds a
buffer of its own length): however a read in flight ends, the length of the caller's buffer does not change. -/
def Obligations.EndingAReadKeepsTheBufferLength : Prop :=
  ∀ (s t : State) (a : Address) (n : Nat), Inv s → s.framer = .inFlight (.readFrame a n) → step s = .next t →
    t.buffer.length = s.buffer.length

/-- 41_write_frame.md section writeFrame (R127): a write presented leaves the data it was given and hands it to the bus
device as it stands, after the header; a caller's own setting of its data sets it; every other input, or none, leaves the
data as it was, on success, on failure and on cancellation. And the caller is refused a change of the data in flight,
which is not R127's but the spec's decision D23 (70_reset_and_hazards.md section 3). -/
def Obligations.TheDataIsNeverChangedByTheBlock : Prop :=
  (∀ (s t : State) (a : Address) (d : List Byte) (rest : List Event),
    s.inputs = .present (.write a d) :: rest → step s = .next t →
    t.data = d ∧ t.log = s.log ++ [[.write (header .write a), .write d]]) ∧
  (∀ (s t : State) (d : List Byte) (rest : List Event),
    s.inputs = .setData d :: rest → step s = .next t → t.data = d ∧ t.log = s.log) ∧
  (∀ s t : State, (∀ a d, s.inputs.head? ≠ some (.present (.write a d))) →
    (∀ d, s.inputs.head? ≠ some (.setData d)) → step s = .next t → t.data = s.data) ∧
  (∀ (s : State) (a : Address) (d d' : List Byte) (rest : List Event),
    s.framer = .inFlight (.writeFrame a d) → s.inputs = .setData d' :: rest → step s = .refused .operandInUse)

/-- 10_state.md section 5 (the two readings of a call): answered at once, a command does what it does in two steps,
presented to a bus device that answers later and then completed with the same outcome, for every outcome. That an answer
comes at once or later is the model's form of the bus device (log entry 3). That a failed read's buffer holds the same
bytes in both is the model's too (log entry 2: both draw the same `any(L)`); of them the spec fixes the length only. -/
def Obligations.BigStepIsPresentThenComplete : Prop :=
  ∀ (i : Instr) (s : State) (o : BusOutcome) (rest : List Answer), s.answers = .atOnce o :: rest →
    exec i s = andThen (exec i { s with answers := .later :: rest }) (complete o)

/-- 10_state.md section 5 ("No other step exists"; the relation is the spec's rendering, decisions D2, D5, D6): whatever
a step of the machine does is the caller's setting of a sequence no call holds, followed by steps of that relation. -/
def Obligations.EveryStepIsAStepOfTheSpecsRelation : Prop :=
  ∀ s t : State, step s = .next t →
    ∃ v, CallerMove (viewOf s) v ∧ Relation.ReflTransGen FramerStep v (viewOf t)

/-- 10_state.md section 5, the other direction (the relation is the spec's rendering, decisions D2 and D6): every step of
the spec's relation is one the machine takes, on some input, to the same framer state, transactions and endings. An
outcome and a cancel leave the same data and the same buffer, but for a read that failed or was cancelled, whose buffer
is any L bytes, so that its length is compared. A presented command lends its own operand with it (log entry 4): a read
leaves the same data and a buffer of length L, a write the same buffer and the data of the command, and the operand that
was there is kept where it is the one the command speaks of. -/
def Obligations.EverySpecStepIsTakenByTheMachine : Prop :=
  ∀ (s : State) (v : View), FramerStep (viewOf s) v → s.inputs = [] → s.answers = [] →
    ∃ e t, step { s with inputs := [e] } = .next t ∧
      t.framer = v.framer ∧ t.log = v.log ∧ t.ended = v.ended ∧
      (v.framer = .idle →
        t.data = v.data ∧ t.buffer.length = v.buffer.length ∧
        (v.ended = s.ended ++ [.delivered .ok] ∨ (∃ a d, s.framer = .inFlight (.writeFrame a d)) →
          t.buffer = v.buffer)) ∧
      (∀ a n, v.framer = .inFlight (.readFrame a n) →
        t.data = v.data ∧ t.buffer.length = n ∧ (v.buffer.length = n → t.buffer = v.buffer)) ∧
      (∀ a d, v.framer = .inFlight (.writeFrame a d) →
        t.buffer = v.buffer ∧ t.data = d ∧ (v.data = d → t.data = v.data))

/-- 10_state.md section 5 ("No other step exists", decisions D2, D5, D6) and 70_reset_and_hazards.md section 1 (a reset in
flight, R171, decision D7): a call in flight stays in flight, the same command, until an outcome, a cancel or a reset;
each of these ends it in the framer state Idle. -/
def Obligations.OnlyOutcomeCancelOrResetEndsACall : Prop :=
  ∀ (s t : State) (c : Instr), s.framer = .inFlight c → step s = .next t →
    (t.framer = .inFlight c ∧ t.log = s.log ∧ t.ended = s.ended ∧
      ∀ e rest, s.inputs = e :: rest → e ≠ .cancel ∧ e ≠ .reset ∧ ∀ o, e ≠ .complete o) ∨
    (t.framer = .idle ∧ ∃ e rest, s.inputs = e :: rest ∧ (e = .cancel ∨ e = .reset ∨ ∃ o, e = .complete o))

/-- 60_exceptions.md section 1 and 70_reset_and_hazards.md section 1: a step sends something on the bus only when a
command is presented to an idle framer, and then exactly that command's transaction. No outcome, error, cancel, reset
or caller's touch sends anything: no retry, no rollback, no abort frame. -/
def Obligations.OnlyAPresentedCallIssuesATransaction : Prop :=
  ∀ s t : State, step s = .next t →
    (t.log = s.log ∧ ∀ c rest, s.inputs ≠ .present c :: rest) ∨
    (∃ c rest, s.inputs = .present c :: rest ∧ s.framer = .idle ∧ t.log = s.log ++ [encode (commandOfCall c)])

/-- 60_exceptions.md section 1 (the block never originates an error) and section 3 (one result per call, decision D24):
a step delivers a result only when the bus device gives an outcome, and it is that outcome's result; it ends a call
without one only on a cancel or a reset in flight; otherwise it ends nothing. -/
def Obligations.ResultsComeOnlyFromOutcomes : Prop :=
  ∀ s t : State, step s = .next t →
    (t.ended = s.ended) ∨
    (∃ o, t.ended = s.ended ++ [.delivered (resultOf o)] ∧
      ((∃ rest, s.inputs = .complete o :: rest) ∨
       (∃ c rest more, s.inputs = .present c :: rest ∧ s.answers = .atOnce o :: more))) ∨
    (t.ended = s.ended ++ [.abandoned] ∧
      ∃ c rest, s.framer = .inFlight c ∧ (s.inputs = .cancel :: rest ∨ s.inputs = .reset :: rest))

/-- 60_exceptions.md R141: a step delivers the error `e` when and only when the bus device gave the outcome `Err(e)` in
it, for every `e`; the block originates none. -/
def Obligations.ErrorArisesExactlyFromTheBus : Prop :=
  ∀ (s t : State) (e : TransportError), step s = .next t →
    (t.ended = s.ended ++ [.delivered (.err e)] ↔
      (∃ rest, s.inputs = .complete (.err e) :: rest) ∨
      (∃ c rest more, s.inputs = .present c :: rest ∧ s.answers = .atOnce (.err e) :: more))

/-- 20_memory.md section 5 (order across calls (a), which rests on the spec's decision D5): serialised calls, any number
of them, each presented only after the one before has ended, with outcomes that keep the bus device's contract, run to
the end; their transactions reach the bus device in the order the commands were presented, and each delivers the result
of its own outcome. -/
def Obligations.SerialisedCallsRunInOrder : Prop :=
  ∀ (xs : List Exchange) (s : State) (rest : List Event),
    s.framer = .idle → s.answers = [] → s.inputs = serialised xs ++ rest →
    (∀ x ∈ xs, x.outcome.fits (commandOfCall x.call) = true) →
    ∃ t, run (2 * xs.length) s = .next t ∧ t.framer = .idle ∧ t.inputs = rest ∧
      t.log = s.log ++ xs.map (fun x => encode (commandOfCall x.call)) ∧
      t.ended = s.ended ++ xs.map (fun x => .delivered (resultOf x.outcome))

/-- 70_reset_and_hazards.md section 3 (no progress guarantee, decision D21) and 60_exceptions.md section 3: with no
outcome, no cancel and no reset the machine stays as it is for any number of steps; a call in flight stays in flight,
and an idle block has nothing to do (that such a step is a step is log entry 4, the model's choice). -/
def Obligations.WithoutInputNothingEverHappens : Prop :=
  ∀ (k : Nat) (s : State), s.inputs = [] → run k s = .next s

/-- 60_exceptions.md section 1 (the error is opaque and never interpreted): renaming every error value, by any function,
and then running any number of steps gives what running and then renaming gives; so no step looks at an error, and the
tokens of log entry 1, the model's choice, carry no meaning. That the bytes of `any(L)` after a failure are the same in
both runs is the model's (log entry 2: both draw the same), and no claim of the spec. -/
def Obligations.ErrorValuesAreNeverInterpreted : Prop :=
  ∀ (f : TransportError → TransportError) (k : Nat) (s : State),
    run k (renameErrors f s) = mapNext (renameErrors f) (run k s)

/-- 10_state.md section 1 (no call can observe anything about an earlier call): putting any older history before what
the two ports have seen changes nothing in a run of any length but that the history stands before its record (which is
the model's own, log entry 6). That the bytes of `any(L)` after a failure are the same in both runs is the model's (log
entry 2: both draw the same), and no claim of the spec. -/
def Obligations.NoCallObservesAnEarlierOne : Prop :=
  ∀ (oldLog : List (List Segment)) (oldEnded : List Ending) (k : Nat) (s : State),
    run k (withPast oldLog oldEnded s) = mapNext (withPast oldLog oldEnded) (run k s)

/-- 40_read_frame.md and 41_write_frame.md (independence from earlier calls, which the spec derives): the transaction a
command issues is the same from any two states in which it runs. -/
def Obligations.TransactionDependsOnTheCommandOnly : Prop :=
  ∀ (i : Instr) (s s' t t' : State), exec i s = .next t → exec i s' = .next t' →
    t.log.drop s.log.length = t'.log.drop s'.log.length

/-- 60_exceptions.md sections 1 and 3 (what a failure records: nothing): after any ending, by an outcome, a cancel or a
reset, the framer is in the one state Idle, from which the next call runs as from any other Idle state. -/
def Obligations.AfterAnyEndingTheNextCallRuns : Prop :=
  ∀ (s t : State) (o : BusOutcome), (complete o s = .next t ∨ cancel s = .next t ∨ t = resetFramer s) →
    t.framer = .idle ∧
    ∀ i, busKeepsContract i t = true → ∃ u, exec i t = .next u ∧ u.log = t.log ++ [encode i]
end

