-- ==== Sys2Proof/Laws/Decode.lean ====
section
/-! SUPPORT. The bit facts under the header's encoding. -/

namespace Sys2Proof

/-- The joined address as a number: the high byte weighs 256 (20_memory.md R43). -/
theorem joinAddr_toNat (hi lo : Byte) : (joinAddr hi lo).toNat = hi.toNat * 256 + lo.toNat := by
  have h : (joinAddr hi lo).toNat = hi.toNat <<< 8 ||| lo.toNat := BitVec.toNat_append hi lo
  rw [h, ← Nat.shiftLeft_add_eq_or_of_lt lo.isLt, Nat.shiftLeft_eq]

/-- Header byte 1 as a number. -/
theorem addrHi_toNat (a : Address) : (addrHi a).toNat = a.toNat / 256 := by
  have := a.isLt
  simp only [addrHi, BitVec.extractLsb'_toNat, Nat.shiftRight_eq_div_pow]
  omega

/-- Header byte 2 as a number. -/
theorem addrLo_toNat (a : Address) : (addrLo a).toNat = a.toNat % 256 := by
  simp [addrLo, BitVec.extractLsb'_toNat]

/-- The two address bytes put together again. -/
@[simp] theorem joinAddr_split (a : Address) : joinAddr (addrHi a) (addrLo a) = a := by
  apply BitVec.eq_of_toNat_eq
  rw [joinAddr_toNat, addrHi_toNat, addrLo_toNat]
  omega

/-- The high byte of a joined address. -/
@[simp] theorem addrHi_join (hi lo : Byte) : addrHi (joinAddr hi lo) = hi := by
  apply BitVec.eq_of_toNat_eq
  have := lo.isLt
  rw [addrHi_toNat, joinAddr_toNat]
  omega

/-- The low byte of a joined address. -/
@[simp] theorem addrLo_join (hi lo : Byte) : addrLo (joinAddr hi lo) = lo := by
  apply BitVec.eq_of_toNat_eq
  have := lo.isLt
  rw [addrLo_toNat, joinAddr_toNat]
  omega

/-- The opcode byte names its operation. -/
@[simp] theorem opOfByte_opcodeByte (op : Op) : opOfByte (opcodeByte op) = some op := by
  cases op <;> decide

/-- A byte that names an operation is that operation's opcode. -/
theorem opOfByte_eq_some {b : Byte} {op : Op} (h : opOfByte b = some op) : b = opcodeByte op := by
  unfold opOfByte at h
  split at h
  · next hb => cases h; exact hb
  · split at h
    · next hb => cases h; exact hb
    · cases h

end Sys2Proof
end

