-- ==== Sys2Proof/Laws/State.lean ====
section
/-! SUPPORT. What each shared update does to each field, so that no later proof unfolds a record update. -/

namespace Sys2Proof.Machine

section busTransaction
variable (segs : List Segment) (s : State)
@[simp] theorem busTransaction_framer : (busTransaction segs s).framer = s.framer := rfl
@[simp] theorem busTransaction_buffer : (busTransaction segs s).buffer = s.buffer := rfl
@[simp] theorem busTransaction_data : (busTransaction segs s).data = s.data := rfl
@[simp] theorem busTransaction_inputs : (busTransaction segs s).inputs = s.inputs := rfl
@[simp] theorem busTransaction_answers : (busTransaction segs s).answers = s.answers := rfl
@[simp] theorem busTransaction_log : (busTransaction segs s).log = s.log ++ [segs] := rfl
@[simp] theorem busTransaction_ended : (busTransaction segs s).ended = s.ended := rfl
@[simp] theorem busTransaction_draws : (busTransaction segs s).draws = s.draws := rfl
end busTransaction

section fillBuffer
variable (bytes : List Byte) (s : State)
@[simp] theorem fillBuffer_framer : (fillBuffer bytes s).framer = s.framer := rfl
@[simp] theorem fillBuffer_buffer : (fillBuffer bytes s).buffer = bytes := rfl
@[simp] theorem fillBuffer_data : (fillBuffer bytes s).data = s.data := rfl
@[simp] theorem fillBuffer_inputs : (fillBuffer bytes s).inputs = s.inputs := rfl
@[simp] theorem fillBuffer_answers : (fillBuffer bytes s).answers = s.answers := rfl
@[simp] theorem fillBuffer_log : (fillBuffer bytes s).log = s.log := rfl
@[simp] theorem fillBuffer_ended : (fillBuffer bytes s).ended = s.ended := rfl
@[simp] theorem fillBuffer_draws : (fillBuffer bytes s).draws = s.draws := rfl
end fillBuffer

section spoilBuffer
variable (n : Nat) (s : State)
@[simp] theorem spoilBuffer_framer : (spoilBuffer n s).framer = s.framer := rfl
@[simp] theorem spoilBuffer_buffer : (spoilBuffer n s).buffer = anyBytes s.draws n := rfl
@[simp] theorem spoilBuffer_data : (spoilBuffer n s).data = s.data := rfl
@[simp] theorem spoilBuffer_inputs : (spoilBuffer n s).inputs = s.inputs := rfl
@[simp] theorem spoilBuffer_answers : (spoilBuffer n s).answers = s.answers := rfl
@[simp] theorem spoilBuffer_log : (spoilBuffer n s).log = s.log := rfl
@[simp] theorem spoilBuffer_ended : (spoilBuffer n s).ended = s.ended := rfl
@[simp] theorem spoilBuffer_draws : (spoilBuffer n s).draws = s.draws + 1 := rfl
end spoilBuffer

section deliver
variable (r : Result) (s : State)
@[simp] theorem deliver_framer : (deliver r s).framer = .idle := rfl
@[simp] theorem deliver_buffer : (deliver r s).buffer = s.buffer := rfl
@[simp] theorem deliver_data : (deliver r s).data = s.data := rfl
@[simp] theorem deliver_inputs : (deliver r s).inputs = s.inputs := rfl
@[simp] theorem deliver_answers : (deliver r s).answers = s.answers := rfl
@[simp] theorem deliver_log : (deliver r s).log = s.log := rfl
@[simp] theorem deliver_ended : (deliver r s).ended = s.ended ++ [.delivered r] := rfl
@[simp] theorem deliver_draws : (deliver r s).draws = s.draws := rfl
end deliver

section abandon
variable (s : State)
@[simp] theorem abandon_framer : (abandon s).framer = .idle := rfl
@[simp] theorem abandon_buffer : (abandon s).buffer = s.buffer := rfl
@[simp] theorem abandon_data : (abandon s).data = s.data := rfl
@[simp] theorem abandon_inputs : (abandon s).inputs = s.inputs := rfl
@[simp] theorem abandon_answers : (abandon s).answers = s.answers := rfl
@[simp] theorem abandon_log : (abandon s).log = s.log := rfl
@[simp] theorem abandon_ended : (abandon s).ended = s.ended ++ [.abandoned] := rfl
@[simp] theorem abandon_draws : (abandon s).draws = s.draws := rfl
end abandon

section lend
variable (c : Call) (s : State)
@[simp] theorem lend_framer : (lend c s).framer = s.framer := by cases c <;> rfl
@[simp] theorem lend_inputs : (lend c s).inputs = s.inputs := by cases c <;> rfl
@[simp] theorem lend_answers : (lend c s).answers = s.answers := by cases c <;> rfl
@[simp] theorem lend_log : (lend c s).log = s.log := by cases c <;> rfl
@[simp] theorem lend_ended : (lend c s).ended = s.ended := by cases c <;> rfl
@[simp] theorem lend_draws : (lend c s).draws = s.draws := by cases c <;> rfl
@[simp] theorem lend_read_buffer (a : Address) (b : List Byte) : (lend (.read a b) s).buffer = b := rfl
@[simp] theorem lend_read_data (a : Address) (b : List Byte) : (lend (.read a b) s).data = s.data := rfl
@[simp] theorem lend_write_buffer (a : Address) (d : List Byte) : (lend (.write a d) s).buffer = s.buffer := rfl
@[simp] theorem lend_write_data (a : Address) (d : List Byte) : (lend (.write a d) s).data = d := rfl
end lend

/-- A draw of `n` bytes has `n` bytes, whatever they are. -/
@[simp] theorem anyBytes_length (draw n : Nat) : (anyBytes draw n).length = n := by simp [anyBytes]

section withFetchWord
variable (s : State) (nbits w : Nat)
@[simp] theorem withFetchWord_inputs : (s.withFetchWord nbits w).inputs = presentWord nbits w s.inputs := rfl
@[simp] theorem withFetchWord_framer : (s.withFetchWord nbits w).framer = s.framer := rfl
end withFetchWord

end Sys2Proof.Machine
end

