-- ==== Sys2Proof/Laws/Ops.lean ====
section
/-! SUPPORT. One inversion lemma for each shared operation: everything it can answer, for provers to cite. -/

namespace Sys2Proof.Machine

/-- A next state of a composition comes from a next state of its first part. -/
theorem andThen_next {r : Step} {f : State → Step} {t : State} (h : andThen r f = .next t) :
    ∃ s, r = .next s ∧ f s = .next t := by
  cases r with
  | next s => exact ⟨s, rfl, h⟩
  | fault x => cases h
  | refused x => cases h

/-- Everything `present` can answer. -/
theorem present_cases (i : Instr) (s : State) :
    (s.framer = .idle ∧ present i s = .next { busTransaction (encode i) s with framer := .inFlight i }) ∨
    (∃ c, s.framer = .inFlight c ∧ present i s = .refused .callInFlight) := by
  cases h : s.framer with
  | idle => exact .inl ⟨rfl, by simp [present, h]⟩
  | inFlight c => exact .inr ⟨c, rfl, by simp [present, h]⟩

/-- Everything `finish` can answer with a next state. -/
theorem finish_next {i : Instr} {o : BusOutcome} {s t : State} (h : finish i o s = .next t) :
    (∃ a rd, i = .readFrame a rd.length ∧ o = .ok rd ∧ t = deliver .ok (fillBuffer rd s)) ∨
    (∃ a n e, i = .readFrame a n ∧ o = .err e ∧ t = deliver (.err e) (spoilBuffer n s)) ∨
    (∃ a d rd, i = .writeFrame a d ∧ o = .ok rd ∧ t = deliver .ok s) ∨
    (∃ a d e, i = .writeFrame a d ∧ o = .err e ∧ t = deliver (.err e) s) := by
  cases i with
  | readFrame a n =>
    cases o with
    | ok rd =>
      by_cases hl : rd.length = n
      · subst hl
        simp only [finish, if_true, Host.Outcome.next.injEq] at h
        exact .inl ⟨a, rd, rfl, rfl, h.symm⟩
      · simp [finish, hl] at h
    | err e =>
      simp only [finish, Host.Outcome.next.injEq] at h
      exact .inr (.inl ⟨a, n, e, rfl, rfl, h.symm⟩)
  | writeFrame a d =>
    cases o with
    | ok rd =>
      simp only [finish, Host.Outcome.next.injEq] at h
      exact .inr (.inr (.inl ⟨a, d, rd, rfl, rfl, h.symm⟩))
    | err e =>
      simp only [finish, Host.Outcome.next.injEq] at h
      exact .inr (.inr (.inr ⟨a, d, e, rfl, rfl, h.symm⟩))

/-- What every ending by an outcome has in common. -/
theorem finish_spec {i : Instr} {o : BusOutcome} {s t : State} (h : finish i o s = .next t) :
    t.framer = .idle ∧ t.data = s.data ∧ t.inputs = s.inputs ∧ t.answers = s.answers ∧ t.log = s.log ∧
    t.ended = s.ended ++ [.delivered (resultOf o)] := by
  rcases finish_next h with ⟨_, _, _, rfl, rfl⟩ | ⟨_, _, _, _, rfl, rfl⟩ | ⟨_, _, _, _, rfl, rfl⟩ |
    ⟨_, _, _, _, rfl, rfl⟩ <;> simp [resultOf]

/-- `finish` answers a next state exactly when the outcome keeps the bus device's contract. -/
theorem finish_completes (i : Instr) (o : BusOutcome) (s : State) :
    (∃ t, finish i o s = .next t) ↔ o.fits i = true := by
  cases i with
  | readFrame a n =>
    cases o with
    | ok rd => by_cases hl : rd.length = n <;> simp [finish, BusOutcome.fits, hl]
    | err e => simp [finish, BusOutcome.fits]
  | writeFrame a d => cases o <;> simp [finish, BusOutcome.fits]

/-- Otherwise it stops. -/
theorem finish_stops {i : Instr} {o : BusOutcome} (s : State) (h : o.fits i = false) :
    finish i o s = .fault .busContractBroken := by
  cases i <;> cases o <;> simp_all [finish, BusOutcome.fits]

/-- Everything `complete` can answer with a next state. -/
theorem complete_next {o : BusOutcome} {s t : State} (h : complete o s = .next t) :
    ∃ i, s.framer = .inFlight i ∧ finish i o s = .next t := by
  cases hf : s.framer with
  | idle => simp [complete, hf] at h
  | inFlight i => exact ⟨i, rfl, by simpa [complete, hf] using h⟩

/-- Everything `cancel` can answer with a next state. -/
theorem cancel_next {s t : State} (h : cancel s = .next t) :
    ∃ i, s.framer = .inFlight i ∧ t = dropCall i s := by
  cases hf : s.framer with
  | idle => simp [cancel, hf] at h
  | inFlight i => exact ⟨i, rfl, by simpa [cancel, hf] using h.symm⟩

/-- A reset leaves an idle framer's state, and drops a call in flight. -/
theorem resetFramer_cases (s : State) :
    (s.framer = .idle ∧ resetFramer s = s) ∨ ∃ i, s.framer = .inFlight i ∧ resetFramer s = dropCall i s := by
  cases hf : s.framer with
  | idle => exact .inl ⟨rfl, by simp [resetFramer, hf]⟩
  | inFlight i => exact .inr ⟨i, rfl, by simp [resetFramer, hf]⟩

/-- A dropped call leaves what crossed the bus, and ends without a result. -/
theorem dropCall_spec (i : Instr) (s : State) :
    (dropCall i s).framer = .idle ∧ (dropCall i s).data = s.data ∧ (dropCall i s).inputs = s.inputs ∧
    (dropCall i s).answers = s.answers ∧ (dropCall i s).log = s.log ∧
    (dropCall i s).ended = s.ended ++ [.abandoned] := by
  cases i <;> simp [dropCall]

/-- Everything `busResponds` can answer with a next state. -/
theorem busResponds_next {s t : State} (h : busResponds s = .next t) :
    (s.answers = [] ∧ t = s) ∨
    (∃ rest, s.answers = .later :: rest ∧ t = { s with answers := rest }) ∨
    (∃ o rest, s.answers = .atOnce o :: rest ∧ complete o { s with answers := rest } = .next t) := by
  unfold busResponds at h
  split at h
  · next ha => exact .inl ⟨ha, by simpa using h.symm⟩
  · next rest ha => exact .inr (.inl ⟨rest, ha, by simpa using h.symm⟩)
  · next o rest ha => exact .inr (.inr ⟨o, rest, ha, h⟩)

/-- Both operations are one shape: present the command, then let the bus device act. -/
theorem exec_eq (i : Instr) (s : State) : exec i s = andThen (present i s) busResponds := by
  cases i <;> rfl

/-- From Idle, `exec` is the bus device's turn with the command in flight. -/
theorem exec_idle {i : Instr} {s : State} (h : s.framer = .idle) :
    exec i s = busResponds { busTransaction (encode i) s with framer := .inFlight i } := by
  simp [exec_eq, present, h, andThen]

/-- In flight, `exec` is refused. -/
theorem exec_inFlight {i c : Instr} {s : State} (h : s.framer = .inFlight c) :
    exec i s = .refused .callInFlight := by
  simp [exec_eq, present, h, andThen]

/-- Everything `exec` can answer with a next state: from Idle, the command in flight with its transaction issued, or the
call ended by the outcome the bus device gave at once. -/
theorem exec_next {i : Instr} {s t : State} (h : exec i s = .next t) :
    s.framer = .idle ∧
    ((answersLater s ∧
      t = { s with answers := s.answers.tail, log := s.log ++ [encode i], framer := .inFlight i }) ∨
     ∃ o rest, s.answers = .atOnce o :: rest ∧
      finish i o { s with answers := rest, log := s.log ++ [encode i], framer := .inFlight i } = .next t) := by
  cases hf : s.framer with
  | inFlight c => rw [exec_inFlight hf] at h; cases h
  | idle =>
    refine ⟨rfl, ?_⟩
    rw [exec_idle hf] at h
    rcases busResponds_next h with ⟨ha, rfl⟩ | ⟨rest, ha, rfl⟩ | ⟨o, rest, ha, hc⟩
    · simp only [busTransaction_answers] at ha
      refine .inl ⟨.inl ha, ?_⟩
      cases s
      simp_all [busTransaction]
    · simp only [busTransaction_answers] at ha
      refine .inl ⟨.inr ⟨_, ha⟩, ?_⟩
      cases s
      simp_all [busTransaction]
    · obtain ⟨j, hj, hc⟩ := complete_next hc
      simp only [Framer.inFlight.injEq] at hj
      subst hj
      exact .inr ⟨o, rest, ha, by simpa [busTransaction] using hc⟩

/-- A call made of a command is a call of that command. -/
@[simp] theorem commandOfCall_callOfCommand (i : Instr) : commandOfCall (callOfCommand i) = i := by
  cases i <;> simp [commandOfCall, callOfCommand]

/-- A command that runs issues its own transaction, whatever the bus device answers. -/
theorem exec_log {i : Instr} {s t : State} (h : exec i s = .next t) : t.log = s.log ++ [encode i] := by
  obtain ⟨-, ⟨-, rfl⟩ | ⟨o, rest, -, hf⟩⟩ := exec_next h
  · rfl
  · exact (finish_spec hf).2.2.2.2.1

/-- A command that runs leaves the caller's data. -/
theorem exec_data {i : Instr} {s t : State} (h : exec i s = .next t) : t.data = s.data := by
  obtain ⟨-, ⟨-, rfl⟩ | ⟨o, rest, -, hf⟩⟩ := exec_next h
  · rfl
  · exact (finish_spec hf).2.1

end Sys2Proof.Machine
end

