-- ==== Sys2Proof/Laws/PerInstr.lean ====
section
/-! SUPPORT. Statements made of every operation as syntax, one lemma per constructor. -/

/-- Every command is well formed, and its transaction has a shape the block issues (20_memory.md R49). -/
def Sys2Proof.Laws.IssuedShape.Statement (i : Sys2Proof.Instr) : Prop :=
  i.wf = true ∧ Sys2Proof.transactionWf (Sys2Proof.encode i) = true

theorem Sys2Proof.Laws.IssuedShape.readFrame (address : Sys2Proof.Address) (len : Nat) :
    Sys2Proof.Laws.IssuedShape.Statement (.readFrame address len) := ⟨rfl, rfl⟩

theorem Sys2Proof.Laws.IssuedShape.writeFrame (address : Sys2Proof.Address) (data : List Sys2Proof.Byte) :
    Sys2Proof.Laws.IssuedShape.Statement (.writeFrame address data) := ⟨rfl, rfl⟩
end

