-- ==== Sys2Proof/Laws/Step.lean ====
section
/-! SUPPORT. What one step, and a run of steps, can do: the inversion lemmas later proofs cite. -/

namespace Sys2Proof.Machine

/-- Everything a step can answer with a next state, by the input that landed. -/
theorem step_next {s t : State} (h : step s = .next t) :
    (s.inputs = [] ∧ t = s) ∨
    (∃ c rest, s.inputs = .present c :: rest ∧ exec (commandOfCall c) (lend c { s with inputs := rest }) = .next t) ∨
    (∃ o rest i, s.inputs = .complete o :: rest ∧ s.framer = .inFlight i ∧ finish i o { s with inputs := rest } = .next t) ∨
    (∃ e rest i, s.inputs = e :: rest ∧ (e = .cancel ∨ e = .reset) ∧ s.framer = .inFlight i ∧ t = dropCall i { s with inputs := rest }) ∨
    (∃ rest, s.inputs = .reset :: rest ∧ s.framer = .idle ∧ t = { s with inputs := rest }) ∨
    (∃ b rest, s.inputs = .setBuffer b :: rest ∧ bufferInUse s = false ∧ t = { s with inputs := rest, buffer := b }) ∨
    (∃ rest, s.inputs = .readBuffer :: rest ∧ bufferInUse s = false ∧ t = { s with inputs := rest }) ∨
    (∃ b rest, s.inputs = .setData b :: rest ∧ dataInUse s = false ∧ t = { s with inputs := rest, data := b }) := by
  unfold step at h
  split at h
  · next hi => exact .inl ⟨hi, by simpa using h.symm⟩
  · next e rest hi =>
    right
    cases e with
    | present c => exact .inl ⟨c, rest, hi, h⟩
    | complete o =>
      obtain ⟨i, hf, h⟩ := complete_next h
      exact .inr (.inl ⟨o, rest, i, hi, hf, h⟩)
    | cancel =>
      obtain ⟨i, hf, h⟩ := cancel_next h
      exact .inr (.inr (.inl ⟨_, rest, i, hi, .inl rfl, hf, h⟩))
    | reset =>
      simp only [onEvent, Host.Outcome.next.injEq] at h
      rcases resetFramer_cases { s with inputs := rest } with ⟨hf, h'⟩ | ⟨i, hf, h'⟩
      · exact .inr (.inr (.inr (.inl ⟨rest, hi, hf, by rw [← h, h']⟩)))
      · exact .inr (.inr (.inl ⟨_, rest, i, hi, .inr rfl, hf, by rw [← h, h']⟩))
    | setBuffer b =>
      simp only [onEvent] at h
      split at h
      · cases h
      · next hb => exact .inr (.inr (.inr (.inr (.inl ⟨b, rest, hi, Bool.eq_false_iff.2 hb, by simpa using h.symm⟩))))
    | readBuffer =>
      simp only [onEvent] at h
      split at h
      · cases h
      · next hb => exact .inr (.inr (.inr (.inr (.inr (.inl ⟨rest, hi, Bool.eq_false_iff.2 hb, by simpa using h.symm⟩)))))
    | setData b =>
      simp only [onEvent] at h
      split at h
      · cases h
      · next hb => exact .inr (.inr (.inr (.inr (.inr (.inr ⟨b, rest, hi, Bool.eq_false_iff.2 hb, by simpa using h.symm⟩)))))

/-- A run of one step more is a step and then the run. -/
theorem run_succ (k : Nat) (s : State) : run (k + 1) s = andThen (step s) (run k) := by
  show (match step s with | .next t => run k t | .fault x => .fault x | .refused x => .refused x) = _
  cases step s <;> rfl

/-- A run is the host's run of this machine. -/
theorem run_eq_core (k : Nat) (s : State) : run k s = Sys2Proof.core.run k s := by
  induction k generalizing s with
  | zero => rfl
  | succ k ih =>
    have h : Sys2Proof.core.run (k + 1) s = andThen (step s) (Sys2Proof.core.run k) := by
      refine (Host.Core.run.eq_2 Sys2Proof.core s k).trans ?_
      generalize hx : Sys2Proof.core.step s = x
      rw [show step s = x from hx]
      cases x <;> rfl
    rw [run_succ, h]
    cases step s with
    | next t => exact ih t
    | fault x => rfl
    | refused x => rfl

end Sys2Proof.Machine
end

