-- ==== Sys2Proof/Tests/Slice0.lean ====
section
/-! SUPPORT. The author's own tests: what the checks refuse, words written out from the spec's encoding, one step of each
kind, and a witness for every statement that has hypotheses. Expected values are those of 95_test_vectors.md, named at
each test, or the rule's own. -/

namespace Sys2Proof.Tests

open Sys2Proof Sys2Proof.Machine

/-- The next state of an answer, if it is one. -/
def next? : Step → Option State
  | .next s => some s
  | .fault _ => none
  | .refused _ => none

/-- An idle machine with these inputs and these answers of the bus device. -/
def idleWith (inputs : List Event) (answers : List Answer) : State :=
  { State.reset with inputs := inputs, answers := answers }

/-- A machine with this command in flight, its transaction issued, and these inputs. -/
def busyWith (i : Instr) (inputs : List Event) : State :=
  { State.reset with framer := .inFlight i, inputs := inputs, log := [encode i], buffer := List.replicate i.len 0 }

/-- Two error values. -/
def e1 : TransportError := ⟨1⟩
def e2 : TransportError := ⟨2⟩

-- What the checks refuse (20_memory.md R49, 10_state.md R31)

theorem test_wf_refuses_merged_write : transactionWf [.write [0xF0#8, 0x00#8, 0x01#8, 0x01#8]] = false := by decide
theorem test_wf_refuses_fourth_header_byte :
    transactionWf [.write [0xF0#8, 0x00#8, 0x01#8, 0x00#8], .write [0x01#8]] = false := by decide
theorem test_wf_refuses_short_header : transactionWf [.write [0x0F#8, 0x00#8], .read 1] = false := by decide
theorem test_wf_refuses_read_first : transactionWf [.read 1, .write [0x0F#8, 0x00#8, 0x00#8]] = false := by decide
theorem test_wf_refuses_third_segment :
    transactionWf [.write [0x0F#8, 0x00#8, 0x00#8], .read 1, .read 1] = false := by decide
theorem test_fits_refuses_wrong_length : (BusOutcome.ok [0x55#8]).fits (.readFrame 0x0000#16 2) = false := by decide
theorem test_command_always_wf : (Instr.readFrame 0xFFFF#16 4).wf = true ∧ (Instr.writeFrame 0xFFFF#16 []).wf = true := by
  decide

-- Words written out (95_test_vectors.md 2.1 and 2.2)

/-- V-H5: the high byte goes first. -/
theorem test_header_read_1234 : headerOf (.readFrame 0x1234#16 1) = [0x0F#8, 0x12#8, 0x34#8] := by decide
/-- V-H7: the top address bit is no sign. -/
theorem test_header_read_8000 : headerOf (.readFrame 0x8000#16 1) = [0x0F#8, 0x80#8, 0x00#8] := by decide
/-- V-H12. -/
theorem test_header_write_abcd : headerOf (.writeFrame 0xABCD#16 []) = [0xF0#8, 0xAB#8, 0xCD#8] := by decide
/-- V-H5, V-H11, the 24-bit view: bits 23:16 opcode, 15:0 address. -/
theorem test_table_word_read : decodeTableWord 24 0x0F1234 = some (.readFrame 0x1234#16 0) := by decide
theorem test_table_word_write : decodeTableWord 24 0xF01234 = some (.writeFrame 0x1234#16 []) := by decide
/-- V-D3, V-D5: not a frame of this block. -/
theorem test_table_word_rejected : decodeTableWord 24 0x000000 = none ∧ decodeTableWord 24 0x0E1234 = none ∧
    decodeTableWord 24 0xF11234 = none ∧ decodeTableWord 24 0xE01234 = none := by decide
/-- V-R1 and V-W2 as whole frames. -/
theorem test_decode_read_frame :
    decode [0x0F#8, 0x00#8, 0x00#8, 0x55#8, 0xAA#8] = .instr (.readFrame 0x0000#16 2) := by decide
theorem test_decode_write_frame :
    decode [0xF0#8, 0x12#8, 0x34#8, 0xAA#8, 0xBB#8, 0xCC#8] = .instr (.writeFrame 0x1234#16 [0xAA#8, 0xBB#8, 0xCC#8]) := by
  decide
/-- V-D6: not a header; the rejection by name is log entry 15. -/
theorem test_decode_short : decode [0x0F#8, 0x00#8] = .rejected (.shortHeader 2) := by decide
/-- S6 and S7, the source's two example scenarios. -/
theorem test_encode_examples :
    encode (.writeFrame 0x0001#16 [0x01#8]) = [.write [0xF0#8, 0x00#8, 0x01#8], .write [0x01#8]] ∧
    encode (.readFrame 0x0000#16 2) = [.write [0x0F#8, 0x00#8, 0x00#8], .read 2] := by decide

-- One step of each kind

/-- S7 (V-R1): the buffer holds the bytes received, the result is Ok, one transaction was issued. -/
theorem test_read_succeeds :
    next? (step (idleWith [.present (.read 0x0000#16 [0x00#8, 0x00#8])] [.atOnce (.ok [0x55#8, 0xAA#8])])) =
      some { State.reset with
        buffer := [0x55#8, 0xAA#8], log := [[.write [0x0F#8, 0x00#8, 0x00#8], .read 2]],
        ended := [.delivered .ok] } := by decide
/-- V-R6: the error value itself is delivered; the buffer keeps its length only. -/
theorem test_read_fails :
    ((next? (step (idleWith [.present (.read 0x1234#16 [0x11#8, 0x22#8, 0x33#8, 0x44#8])] [.atOnce (.err e1)]))).map
      fun s => (s.framer, s.ended, s.buffer.length)) = some (.idle, [.delivered (.err e1)], 4) := by decide
/-- S6 (V-W1). -/
theorem test_write_succeeds :
    next? (step (idleWith [.present (.write 0x0001#16 [0x01#8])] [.atOnce (.ok [])])) =
      some { State.reset with
        data := [0x01#8], log := [[.write [0xF0#8, 0x00#8, 0x01#8], .write [0x01#8]]],
        ended := [.delivered .ok] } := by decide
/-- V-W6: the error is delivered and the data is unchanged. -/
theorem test_write_fails :
    next? (step (idleWith [.present (.write 0x0010#16 [0x0A#8, 0x0B#8, 0x0C#8])] [.atOnce (.err e2)])) =
      some { State.reset with
        data := [0x0A#8, 0x0B#8, 0x0C#8],
        log := [[.write [0xF0#8, 0x00#8, 0x10#8], .write [0x0A#8, 0x0B#8, 0x0C#8]]],
        ended := [.delivered (.err e2)] } := by decide
/-- V-E4: presented to a bus device that does not answer at once, the call is in flight. -/
theorem test_present_goes_in_flight :
    ((next? (step (idleWith [.present (.write 0x0001#16 [0x01#8])] []))).map (·.framer)) =
      some (.inFlight (.writeFrame 0x0001#16 [0x01#8])) := by decide
/-- V-E6: a second command is refused. -/
theorem test_second_call_refused :
    step (busyWith (.readFrame 0x0000#16 2) [.present (.write 0x0001#16 [])]) = .refused .callInFlight := rfl
/-- V-E7: cancelled, no result is delivered, the buffer has two bytes. -/
theorem test_cancel :
    ((next? (step (busyWith (.readFrame 0x0000#16 2) [.cancel]))).map
      fun s => (s.framer, s.ended, s.buffer.length)) = some (.idle, [.abandoned], 2) := by decide
/-- V-E8: no step when Idle. -/
theorem test_cancel_idle : step (idleWith [.cancel] []) = .refused .noCallInFlight := rfl
/-- V-E9: as cancel; the block sends nothing. -/
theorem test_reset_in_flight :
    ((next? (step (busyWith (.writeFrame 0x0010#16 [0x0A#8]) [.reset]))).map
      fun s => (s.framer, s.ended, s.log.length)) = some (.idle, [.abandoned], 1) := by decide
/-- A table word runs as the first command after reset (10_state.md R31). -/
theorem test_fetch_word_runs :
    ((next? (step (State.reset.withFetchWord 24 0x0F1234))).map (·.framer)) =
      some (.inFlight (.readFrame 0x1234#16 0)) := by decide

-- Witnesses: concrete values that meet the hypotheses of each statement

theorem witness_DecoderRejectsEverythingElse :
    (0x00#8 : Byte) ≠ 0x0F#8 ∧ (0x00#8 : Byte) ≠ 0xF0#8 ∧ ([0x0F#8, 0x00#8] : List Byte).length < 3 := by decide
theorem witness_HeaderIsInjective : header .read 0xFFFF#16 = header .read 65535#16 := by decide
theorem witness_EncodedFrameDecodesToItsCommand :
    (BusOutcome.ok [0x55#8, 0xAA#8]).fits (.readFrame 0x0000#16 2) = true ∧
    (BusOutcome.ok []).fits (.writeFrame 0xFFFF#16 [0x01#8]) = true := by decide
theorem witness_DecodedFrameIsTheFrameOfItsCommand :
    decode [0x0F#8, 0xFF#8, 0xFF#8] = .instr (.readFrame 0xFFFF#16 0) := by decide
theorem witness_FrameIsThreePlusLBytes : (BusOutcome.ok []).fits (.readFrame 0x0020#16 0) = true := by decide
theorem witness_StepRunsThePresentedCall :
    (idleWith [.present (.read 0x0000#16 [])] []).inputs = .present (.read 0x0000#16 []) :: [] := rfl
theorem witness_StepRunsTheDecodedWord :
    decodeTableWord 24 0xF0FFFF = some (.writeFrame 0xFFFF#16 []) ∧ decodeTableWord 24 0xFF0001 = none := by decide
theorem witness_ReadFrameRunsItsPseudocode :
    (idleWith [] [.atOnce (.ok [0x55#8, 0xAA#8])]).framer = .idle ∧
    (idleWith [] [.atOnce (.ok [0x55#8, 0xAA#8])]).answers = .atOnce (.ok [0x55#8, 0xAA#8]) :: [] ∧
    ([0x55#8, 0xAA#8] : List Byte).length = 2 ∧
    (idleWith [] [.atOnce (.err e1)]).framer = .idle ∧
    (idleWith [] [.atOnce (.err e1)]).answers = .atOnce (.err e1) :: [] := by decide
theorem witness_ReadFrameRunsItsPseudocode_later :
    (idleWith [] []).framer = .idle ∧ answersLater (idleWith [] []) ∧
    (idleWith [] [.later]).framer = .idle ∧ answersLater (idleWith [] [.later]) ∧ ([] : List Byte).length = 0 :=
  ⟨rfl, .inl rfl, rfl, .inr ⟨[], rfl⟩, rfl⟩
theorem witness_WriteFrameRunsItsPseudocode :
    (idleWith [] [.atOnce (.ok [])]).framer = .idle ∧
    (idleWith [] [.atOnce (.ok [])]).answers = .atOnce (.ok []) :: [] ∧
    (idleWith [] [.atOnce (.err e2)]).framer = .idle ∧
    (idleWith [] [.atOnce (.err e2)]).answers = .atOnce (.err e2) :: [] := by decide
theorem witness_WriteFrameRunsItsPseudocode_later :
    (idleWith [] []).framer = .idle ∧ answersLater (idleWith [] []) := ⟨rfl, .inl rfl⟩
/-- `exec` answers a next state from Idle, ended at once or in flight: for both frames, OneTransactionPerCall,
SequencingIgnoresAddressAndPayload and TransactionDependsOnTheCommandOnly. -/
theorem witness_exec_answers_next :
    (next? (exec (.readFrame 0x0000#16 2) (idleWith [] [.atOnce (.ok [0x55#8, 0xAA#8])]))).isSome = true ∧
    (next? (exec (.readFrame 0xFFFF#16 2) (idleWith [] []))).isSome = true ∧
    (next? (exec (.writeFrame 0xFFFF#16 [0x01#8]) (idleWith [] [.atOnce (.err e2)]))).isSome = true ∧
    (next? (exec (.writeFrame 0x0000#16 [0x02#8]) (idleWith [] []))).isSome = true ∧
    (Instr.readFrame 0x0000#16 2).op = (Instr.readFrame 0xFFFF#16 2).op ∧
    (Instr.readFrame 0x0000#16 2).len = (Instr.readFrame 0xFFFF#16 2).len := by decide
theorem witness_ZeroLengthCallStillTransacts :
    (next? (exec (.readFrame 0x0020#16 0) (idleWith [] [.atOnce (.ok [])]))).isSome = true ∧
    (next? (exec (.writeFrame 0x0020#16 []) (idleWith [] [.atOnce (.ok [])]))).isSome = true := by decide
theorem witness_ReissuedWriteSendsTheWholeFrameAgain :
    (idleWith [] [.atOnce (.err e2), .atOnce (.ok [])]).framer = .idle ∧
    (idleWith [] [.atOnce (.err e2), .atOnce (.ok [])]).answers = .atOnce (.err e2) :: .atOnce (.ok []) :: [] := by decide
theorem witness_AnyAddressAndLengthIsAccepted :
    (idleWith [.present (.read 0xFFFF#16 [0x00#8])] []).framer = .idle ∧
    (idleWith [.present (.read 0xFFFF#16 [0x00#8])] []).inputs = .present (.read 0xFFFF#16 [0x00#8]) :: [] ∧
    busKeepsContract (.readFrame 0xFFFF#16 ([0x00#8] : List Byte).length)
      (idleWith [.present (.read 0xFFFF#16 [0x00#8])] []) = true ∧
    (idleWith [.present (.write 0xFFFF#16 [])] []).framer = .idle ∧
    (idleWith [.present (.write 0xFFFF#16 [])] []).inputs = .present (.write 0xFFFF#16 []) :: [] := by decide
theorem witness_RepeatedReadIsNotAnsweredFromTheFirst :
    (idleWith [] [.atOnce (.ok [0x55#8]), .atOnce (.ok [0x66#8])]).framer = .idle ∧
    (idleWith [] [.atOnce (.ok [0x55#8]), .atOnce (.ok [0x66#8])]).answers =
      .atOnce (.ok [0x55#8]) :: .atOnce (.ok [0x66#8]) :: [] ∧
    ([0x66#8] : List Byte).length = ([0x55#8] : List Byte).length := by decide
theorem witness_OutcomeEndsTheCallInFlight :
    (busyWith (.readFrame 0x0000#16 1) [.complete (.ok [0x42#8])]).inputs = .complete (.ok [0x42#8]) :: [] ∧
    (busyWith (.readFrame 0x0000#16 1) [.complete (.ok [0x42#8])]).framer =
      .inFlight (.readFrame 0x0000#16 ([0x42#8] : List Byte).length) ∧
    (busyWith (.readFrame 0x0000#16 0) [.complete (.err e1)]).inputs = .complete (.err e1) :: [] ∧
    (busyWith (.readFrame 0x0000#16 0) [.complete (.err e1)]).framer = .inFlight (.readFrame 0x0000#16 0) := by decide
theorem witness_OutcomeEndsTheCallInFlight_write :
    (busyWith (.writeFrame 0x0001#16 []) [.complete (.ok [])]).inputs = .complete (.ok []) :: [] ∧
    (busyWith (.writeFrame 0x0001#16 []) [.complete (.ok [])]).framer = .inFlight (.writeFrame 0x0001#16 []) ∧
    (busyWith (.writeFrame 0x0001#16 []) [.complete (.err e2)]).inputs = .complete (.err e2) :: [] ∧
    (busyWith (.writeFrame 0x0001#16 []) [.complete (.err e2)]).framer = .inFlight (.writeFrame 0x0001#16 []) := by decide
theorem witness_ErrorIsDeliveredUnchanged :
    (idleWith [] [.atOnce (.err e1)]).framer = .idle ∧
    (idleWith [] [.atOnce (.err e1)]).answers = .atOnce (.err e1) :: [] ∧
    (busyWith (.readFrame 0x0000#16 1) []).framer = .inFlight (.readFrame 0x0000#16 1) ∧
    (next? (complete (.err e1) (busyWith (.readFrame 0x0000#16 1) []))).isSome = true := by decide
theorem witness_SuccessfulReadFillsTheBufferInOrder :
    (idleWith [.present (.read 0x0000#16 [0x00#8])] [.atOnce (.ok [0x55#8])]).framer = .idle ∧
    (idleWith [.present (.read 0x0000#16 [0x00#8])] [.atOnce (.ok [0x55#8])]).inputs =
      .present (.read 0x0000#16 [0x00#8]) :: [] ∧
    (idleWith [.present (.read 0x0000#16 [0x00#8])] [.atOnce (.ok [0x55#8])]).answers = .atOnce (.ok [0x55#8]) :: [] ∧
    (busyWith (.readFrame 0x0000#16 1) []).framer =
      .inFlight (.readFrame 0x0000#16 ([0x55#8] : List Byte).length) := by decide
theorem witness_CancelEndsTheCallWithoutResult :
    (busyWith (.readFrame 0x0000#16 2) [.cancel]).inputs = .cancel :: [] ∧
    (busyWith (.readFrame 0x0000#16 2) [.cancel]).framer = .inFlight (.readFrame 0x0000#16 2) ∧
    (busyWith (.writeFrame 0x0000#16 []) [.cancel]).inputs = .cancel :: [] ∧
    (busyWith (.writeFrame 0x0000#16 []) [.cancel]).framer = .inFlight (.writeFrame 0x0000#16 []) := by decide
theorem witness_ResetIsCancelInFlightAndNothingWhenIdle :
    (busyWith (.readFrame 0x0000#16 2) [.reset]).inputs = .reset :: [] ∧
    (busyWith (.readFrame 0x0000#16 2) [.reset]).framer = .inFlight (.readFrame 0x0000#16 2) ∧
    (idleWith [.reset] []).inputs = .reset :: [] ∧ (idleWith [.reset] []).framer = .idle := by decide
theorem witness_SecondCallInFlightIsRefused :
    (busyWith (.readFrame 0x0000#16 2) [.present (.write 0x0001#16 [])]).framer = .inFlight (.readFrame 0x0000#16 2) ∧
    (busyWith (.readFrame 0x0000#16 2) [.present (.write 0x0001#16 [])]).inputs = .present (.write 0x0001#16 []) :: [] := by
  decide
theorem witness_IdleHasNoCompleteOrCancel :
    (idleWith [.complete (.ok [])] []).framer = .idle ∧
    (idleWith [.complete (.ok [])] []).inputs = .complete (.ok []) :: [] ∧
    (idleWith [.cancel] []).framer = .idle ∧ (idleWith [.cancel] []).inputs = .cancel :: [] := by decide
theorem witness_WrongReadLengthIsAFault :
    ([] : List Byte).length ≠ 1 ∧ (busyWith (.readFrame 0x0000#16 1) []).framer = .inFlight (.readFrame 0x0000#16 1) ∧
    (idleWith [] [.atOnce (.ok [])]).framer = .idle ∧
    (idleWith [] [.atOnce (.ok [])]).answers = .atOnce (.ok []) :: [] := by decide
theorem witness_TouchingALentOperandIsRefused_read :
    (busyWith (.readFrame 0x0000#16 1) [.readBuffer]).framer = .inFlight (.readFrame 0x0000#16 1) ∧
    (busyWith (.readFrame 0x0000#16 1) [.readBuffer]).inputs = .readBuffer :: [] ∧
    (busyWith (.readFrame 0x0000#16 1) [.setBuffer []]).inputs = .setBuffer [] :: [] ∧
    (busyWith (.readFrame 0x0000#16 1) [.setData []]).inputs = .setData [] :: [] := by decide
theorem witness_TouchingALentOperandIsRefused_write :
    (busyWith (.writeFrame 0x0000#16 []) [.setData []]).framer = .inFlight (.writeFrame 0x0000#16 []) ∧
    (busyWith (.writeFrame 0x0000#16 []) [.setData []]).inputs = .setData [] :: [] ∧
    (busyWith (.writeFrame 0x0000#16 []) [.setBuffer []]).inputs = .setBuffer [] :: [] ∧
    (busyWith (.writeFrame 0x0000#16 []) [.readBuffer]).inputs = .readBuffer :: [] := by decide
theorem witness_TouchingALentOperandIsRefused_idle :
    (idleWith [.setBuffer []] []).framer = .idle ∧ (idleWith [.setBuffer []] []).inputs = .setBuffer [] :: [] ∧
    (idleWith [.readBuffer] []).inputs = .readBuffer :: [] ∧ (idleWith [.setData []] []).inputs = .setData [] :: [] := by
  decide
/-- A state with a read in flight that meets the invariant and whose next step is the cancel: for
EveryStepKeepsTheInvariant, RunsIssueOneTransactionPerEnding and EndingAReadKeepsTheBufferLength. -/
theorem witness_Inv_in_flight :
    Inv (busyWith (.readFrame 0x0000#16 2) [.cancel]) ∧
    (busyWith (.readFrame 0x0000#16 2) [.cancel]).framer = .inFlight (.readFrame 0x0000#16 2) ∧
    (next? (step (busyWith (.readFrame 0x0000#16 2) [.cancel]))).isSome = true ∧
    (next? (run 2 (busyWith (.readFrame 0x0000#16 2) [.cancel]))).isSome = true :=
  ⟨⟨⟨rfl, rfl⟩, by decide, rfl⟩, rfl, rfl, rfl⟩
/-- Steps that answer a next state: for EveryStepIsAStepOfTheSpecsRelation, OnlyAPresentedCallIssuesATransaction,
ResultsComeOnlyFromOutcomes, ErrorArisesExactlyFromTheBus and OnlyOutcomeCancelOrResetEndsACall. -/
theorem witness_step_answers_next :
    (next? (step (idleWith [.present (.write 0xFFFF#16 [0x01#8])] [.atOnce (.ok [])]))).isSome = true ∧
    (next? (step (idleWith [.setData [0x01#8]] []))).isSome = true ∧
    (next? (step (busyWith (.writeFrame 0x0001#16 []) [.complete (.ok [])]))).isSome = true ∧
    (next? (step (busyWith (.writeFrame 0x0001#16 []) []))).isSome = true := by decide
/-- The four clauses: a write presented, also with the data that was there before; the data set by the caller; an
outcome, a cancellation and no input in flight; a change of the data in flight. -/
theorem witness_TheDataIsNeverChangedByTheBlock :
    (idleWith [.present (.write 0xFFFF#16 [])] []).inputs =
      .present (.write 0xFFFF#16 (idleWith [.present (.write 0xFFFF#16 [])] []).data) :: [] ∧
    (next? (step (idleWith [.present (.write 0xFFFF#16 [])] []))).isSome = true ∧
    (next? (step (idleWith [.present (.write 0x0001#16 [0x01#8])] [.atOnce (.err e1)]))).isSome = true ∧
    (next? (step (idleWith [.setData [0x01#8]] []))).isSome = true ∧
    (next? (step (busyWith (.writeFrame 0x0001#16 []) [.complete (.err e1)]))).isSome = true ∧
    (next? (step (busyWith (.writeFrame 0x0001#16 []) [.cancel]))).isSome = true ∧
    (next? (step (busyWith (.writeFrame 0x0001#16 []) []))).isSome = true ∧
    (busyWith (.writeFrame 0x0001#16 []) [.setData []]).framer = .inFlight (.writeFrame 0x0001#16 []) ∧
    (busyWith (.writeFrame 0x0001#16 []) [.setData []]).inputs = .setData [] :: [] := by decide
theorem witness_BigStepIsPresentThenComplete :
    (idleWith [] [.atOnce (.ok [])]).answers = .atOnce (.ok []) :: [] := rfl
/-- A command presented: a read of no byte, whose buffer is the one that was there, and a write. -/
theorem witness_EverySpecStepIsTakenByTheMachine_present :
    (∀ i, FramerStep (viewOf State.reset)
      { viewOf State.reset with log := (viewOf State.reset).log ++ [encode i], framer := .inFlight i }) ∧
    State.reset.inputs = [] ∧ State.reset.answers = [] ∧
    (viewOf State.reset).buffer.length = 0 ∧ (viewOf State.reset).data = [] :=
  ⟨fun _ => .present _ _ rfl, rfl, rfl, rfl, rfl⟩
/-- A read ends: a success, a failure, a cancellation. -/
theorem witness_EverySpecStepIsTakenByTheMachine_read :
    let s := busyWith (.readFrame 0xFFFF#16 2) []
    let v := viewOf s
    FramerStep v { v with buffer := [0x55#8, 0xAA#8], ended := v.ended ++ [.delivered .ok], framer := .idle } ∧
    FramerStep v { v with buffer := [0x00#8, 0xFF#8], ended := v.ended ++ [.delivered (.err e1)], framer := .idle } ∧
    FramerStep v { v with buffer := [0x00#8, 0xFF#8], ended := v.ended ++ [.abandoned], framer := .idle } ∧
    s.inputs = [] ∧ s.answers = [] :=
  ⟨.readOk _ 0xFFFF#16 _ rfl, .readErr _ 0xFFFF#16 _ _ rfl, .cancelRead _ 0xFFFF#16 _ rfl, rfl, rfl⟩
/-- A write ends: a success, a failure, a cancellation. -/
theorem witness_EverySpecStepIsTakenByTheMachine_write :
    let s := busyWith (.writeFrame 0x0001#16 [0x01#8]) []
    let v := viewOf s
    FramerStep v { v with ended := v.ended ++ [.delivered .ok], framer := .idle } ∧
    FramerStep v { v with ended := v.ended ++ [.delivered (.err e2)], framer := .idle } ∧
    FramerStep v { v with ended := v.ended ++ [.abandoned], framer := .idle } ∧
    s.framer = .inFlight (.writeFrame 0x0001#16 [0x01#8]) ∧ s.inputs = [] ∧ s.answers = [] :=
  ⟨.writeOk _ _ _ rfl, .writeErr _ _ _ _ rfl, .cancelWrite _ _ _ rfl, rfl, rfl, rfl⟩
theorem witness_SerialisedCallsRunInOrder :
    let xs : List Exchange :=
      [⟨.write 0x0001#16 [0x01#8], .ok []⟩, ⟨.read 0x0000#16 [0x00#8, 0x00#8], .ok [0x55#8, 0xAA#8]⟩]
    (idleWith (serialised xs ++ []) []).framer = .idle ∧ (idleWith (serialised xs ++ []) []).answers = [] ∧
    (idleWith (serialised xs ++ []) []).inputs = serialised xs ++ [] ∧
    ∀ x ∈ xs, x.outcome.fits (commandOfCall x.call) = true := by decide
theorem witness_WithoutInputNothingEverHappens : (busyWith (.readFrame 0x0000#16 2) []).inputs = [] := rfl
theorem witness_AfterAnyEndingTheNextCallRuns :
    (next? (complete (.err e1) (busyWith (.readFrame 0x0000#16 1) []))).isSome = true ∧
    (next? (cancel (busyWith (.readFrame 0x0000#16 1) []))).isSome = true ∧
    busKeepsContract (.readFrame 0x0000#16 1) (resetFramer (busyWith (.readFrame 0x0000#16 1) [])) = true := by decide

end Sys2Proof.Tests
end

