-- ==== Sys2Proof/Proofs/Header.lean ====
section
/-! PROOF. The header's bytes and its 24-bit number (30_encoding.md R71 to R73): O1, O2 and O3. -/

namespace Sys2Proof

/-- The opcode byte as a number (30_encoding.md R72). -/
theorem opcodeByte_toNat (op : Op) : (opcodeByte op).toNat = if op = .read then 0x0F else 0xF0 := by
  cases op <;> rfl

/-- R73 masks with 0xFF, which keeps the remainder by 256. -/
theorem and_mask_byte (n : Nat) : n &&& 0xFF = n % 256 :=
  Nat.and_two_pow_sub_one_eq_mod n 8

/-- Header byte 1 by R73's expression. -/
theorem addrHi_toNat_shift_mask (a : Address) : (addrHi a).toNat = (a.toNat >>> 8) &&& 0xFF := by
  rw [and_mask_byte, Nat.shiftRight_eq_div_pow, ← addrHi_toNat, Nat.mod_eq_of_lt (addrHi a).isLt]

/-- Header byte 2 by R73's expression. -/
theorem addrLo_toNat_mask (a : Address) : (addrLo a).toNat = a.toNat &&& 0xFF := by
  rw [and_mask_byte, addrLo_toNat]

/-- Header byte 1 built from the address as a number. -/
theorem addrHi_eq_ofNat (a : Address) : addrHi a = BitVec.ofNat 8 (a.toNat / 256) := by
  rw [← addrHi_toNat, BitVec.ofNat_toNat, BitVec.setWidth_eq]

/-- Header byte 2 built from the address as a number. -/
theorem addrLo_eq_ofNat (a : Address) : addrLo a = BitVec.ofNat 8 (a.toNat % 256) := by
  rw [← addrLo_toNat, BitVec.ofNat_toNat, BitVec.setWidth_eq]

/-- The header's bytes as numbers, by R73's expressions. -/
theorem header_map_toNat (op : Op) (a : Address) :
    (header op a).map BitVec.toNat =
      [if op = .read then 0x0F else 0xF0, (a.toNat >>> 8) &&& 0xFF, a.toNat &&& 0xFF] := by
  simp only [header, List.map_cons, List.map_nil, opcodeByte_toNat, addrHi_toNat_shift_mask,
    addrLo_toNat_mask]

/-- The header as the 24-bit number H: the opcode stands above the 16 bits of the address (00_scope.md R7). -/
theorem numberOfBytes_header (op : Op) (a : Address) :
    numberOfBytes (header op a) = (opcodeByte op).toNat * 65536 + a.toNat := by
  have hH : numberOfBytes (header op a) =
      ((opcodeByte op).toNat * 256 + (addrHi a).toNat) * 256 + (addrLo a).toNat := by
    simp [numberOfBytes, header]
  rw [hH, addrHi_toNat, addrLo_toNat]
  omega

/-- What a command sends begins with its header, whatever its payload segment (30_encoding.md R75). -/
theorem wireOut_encode (i : Instr) :
    wireOut (encode i) = headerOf i ++ (payloadSegment i).outbound := by
  simp [wireOut, encode, Segment.outbound]

/-- Settles O1: R73's expressions byte by byte; the two boundary addresses are computed. -/
theorem headerIsOpcodeThenHighByteThenLowByte : Obligations.HeaderIsOpcodeThenHighByteThenLowByte :=
  ⟨fun i => header_map_toNat i.op i.address, header_map_toNat, fun _ => rfl, fun _ => rfl⟩

/-- Settles O2: the fields are read off `H = opcode * 65536 + address`, since the address is below 65536. -/
theorem headerAsNumberHasThreeFields : Obligations.HeaderAsNumberHasThreeFields := by
  refine ⟨fun i => ?_, fun op a => ?_⟩
  · rw [wireOut_encode]; rfl
  · have hH := numberOfBytes_header op a
    have ha := a.isLt
    refine ⟨rfl, hH, ?_, ?_, ?_, rfl, congrArg some (addrHi_eq_ofNat a), congrArg some (addrLo_eq_ofNat a)⟩
    · rw [hH, ← opcodeByte_toNat]; omega
    · rw [hH]; omega
    · rw [hH]; omega

/-- Settles O3: the two constants are computed; the first header byte is the opcode by the header's definition. -/
theorem opcodeBytesAreTheTwoConstants : Obligations.OpcodeBytesAreTheTwoConstants :=
  ⟨rfl, rfl, by decide, by decide, fun _ => rfl⟩

end Sys2Proof
end

