-- ==== Sys2Proof/Proofs/ReadFrame.lean ====
section
/-! PROOF. What a call does when the bus device answers at once, when it answers later, and when the outcome comes
(10_state.md R31), and from that `readFrame` (40_read_frame.md R100 to R102): O17, O22 and O31. -/

namespace Sys2Proof.Machine

-- The three ways a call meets its outcome, for both operations

/-- Answered at once from Idle, a command issues its transaction and ends by the outcome given. -/
theorem exec_atOnce {i : Instr} {s : State} {o : BusOutcome} {rest : List Answer}
    (hidle : s.framer = .idle) (ha : s.answers = .atOnce o :: rest) :
    exec i s = finish i o { s with answers := rest, log := s.log ++ [encode i], framer := .inFlight i } := by
  simp [exec_idle hidle, busResponds, ha, complete, busTransaction]

/-- Not answered at once, a command presented to an idle framer issues its transaction and is in flight. -/
theorem exec_later {i : Instr} {s : State} (hidle : s.framer = .idle) (ha : answersLater s) :
    exec i s = .next { s with answers := s.answers.tail, log := s.log ++ [encode i], framer := .inFlight i } := by
  rcases ha with ha | ⟨rest, ha⟩ <;> simp [exec_idle hidle, busResponds, ha, busTransaction]

/-- The outcome of a command in flight ends it. -/
theorem complete_inFlight {i : Instr} {s : State} (o : BusOutcome) (hbusy : s.framer = .inFlight i) :
    complete o s = finish i o s := by
  simp [complete, hbusy]

/-- A command presented to an idle framer goes through when the bus device keeps its contract. -/
theorem exec_completes {i : Instr} {s : State} (hidle : s.framer = .idle) (hk : busKeepsContract i s = true) :
    ∃ t, exec i s = .next t := by
  match ha : s.answers with
  | [] => exact ⟨_, exec_later hidle (.inl ha)⟩
  | .later :: rest => exact ⟨_, exec_later hidle (.inr ⟨rest, ha⟩)⟩
  | .atOnce o :: rest =>
    rw [exec_atOnce hidle ha]
    exact (finish_completes i o _).2 (by simpa [busKeepsContract, ha] using hk)

/-- No answer can break the contract for a write, whose success carries nothing that is looked at. -/
@[simp] theorem busKeepsContract_writeFrame (a : Address) (d : List Byte) (s : State) :
    busKeepsContract (.writeFrame a d) s = true := by
  match ha : s.answers with
  | [] => simp [busKeepsContract, ha]
  | .later :: _ => simp [busKeepsContract, ha]
  | .atOnce o :: _ => cases o <;> simp [busKeepsContract, ha, BusOutcome.fits]

/-- A step whose next input is a call runs its command on what the caller lends (10_state.md R29). -/
theorem step_present {s : State} {c : Call} {rest : List Event} (h : s.inputs = .present c :: rest) :
    step s = exec (commandOfCall c) (lend c { s with inputs := rest }) := by
  simp [step, h, onEvent]

-- The endings of a read

/-- A read's transaction, with its header written as R73 computes it. -/
theorem encode_readFrame_shift_mask (a : Address) (n : Nat) :
    encode (.readFrame a n) =
      [.write [0x0F#8, BitVec.ofNat 8 ((a.toNat >>> 8) &&& 0xFF), BitVec.ofNat 8 (a.toNat &&& 0xFF)], .read n] := by
  rw [← addrHi_toNat_shift_mask, ← addrLo_toNat_mask, BitVec.ofNat_toNat, BitVec.ofNat_toNat,
    BitVec.setWidth_eq, BitVec.setWidth_eq]
  rfl

section readFrame
variable {s : State} {a : Address} {n : Nat} {rd : List Byte} {rest : List Answer}

/-- A read that succeeds with L bytes puts them into the buffer. -/
theorem finish_readFrame_ok (hl : rd.length = n) :
    finish (.readFrame a n) (.ok rd) s = .next { s with
      framer := .idle, buffer := rd, ended := s.ended ++ [.delivered .ok] } := by
  simp [finish, hl, deliver, fillBuffer, resultOf]

/-- A read that fails draws the buffer afresh. -/
theorem finish_readFrame_err (e : TransportError) :
    finish (.readFrame a n) (.err e) s = .next { s with
      framer := .idle, buffer := anyBytes s.draws n, draws := s.draws + 1,
      ended := s.ended ++ [.delivered (.err e)] } := rfl

/-- However its outcome ends it, a read leaves L bytes in the buffer. -/
theorem finish_readFrame_buffer_length {o : BusOutcome} {t : State}
    (h : finish (.readFrame a n) o s = .next t) : t.buffer.length = n := by
  rcases finish_next h with ⟨_, rd, hi, -, rfl⟩ | ⟨_, m, _, hi, -, rfl⟩ | ⟨_, _, _, hi, -⟩ | ⟨_, _, _, hi, -⟩
  · cases hi; rfl
  · cases hi; simp
  · cases hi
  · cases hi

/-- A read of the lent buffer's length keeps that length, in flight and ended. -/
theorem exec_readFrame_buffer_length {t : State} (hlent : s.buffer.length = n)
    (h : exec (.readFrame a n) s = .next t) : t.buffer.length = n := by
  obtain ⟨-, ⟨-, rfl⟩ | ⟨o, rest, -, hfin⟩⟩ := exec_next h
  · exact hlent
  · exact finish_readFrame_buffer_length hfin

/-- A read that succeeds at once. -/
theorem exec_readFrame_ok (hidle : s.framer = .idle) (ha : s.answers = .atOnce (.ok rd) :: rest)
    (hl : rd.length = n) :
    exec (.readFrame a n) s = .next { s with
      answers := rest, log := s.log ++ [encode (.readFrame a n)], buffer := rd,
      ended := s.ended ++ [.delivered .ok] } := by
  rw [exec_atOnce hidle ha, finish_readFrame_ok hl, hidle]

/-- A read that fails at once. -/
theorem exec_readFrame_err {e : TransportError} (hidle : s.framer = .idle)
    (ha : s.answers = .atOnce (.err e) :: rest) :
    exec (.readFrame a n) s = .next { s with
      answers := rest, log := s.log ++ [encode (.readFrame a n)], buffer := anyBytes s.draws n,
      draws := s.draws + 1, ended := s.ended ++ [.delivered (.err e)] } := by
  rw [exec_atOnce hidle ha, finish_readFrame_err, hidle]

end readFrame

/-- Settles O17: the outcome ends the read, whether it comes at once or by `complete`; the transaction is the encoded
one. -/
theorem readFrameRunsItsPseudocode : Obligations.ReadFrameRunsItsPseudocode := by
  intro s a n hidle segs
  have hsegs : segs = encode (.readFrame a n) := (encode_readFrame_shift_mask a n).symm
  rw [hsegs]
  refine ⟨fun rd rest ha hl => exec_readFrame_ok hidle ha hl, fun e rest ha => ?_, fun ha => ?_⟩
  · exact ⟨_, anyBytes_length s.draws n, exec_readFrame_err hidle ha⟩
  · refine ⟨_, exec_later hidle ha, rfl, fun rd hl => ?_, fun e => ⟨_, anyBytes_length s.draws n, ?_⟩⟩
    · rw [complete_inFlight _ rfl, finish_readFrame_ok hl]
    · rw [complete_inFlight _ rfl, finish_readFrame_err]

/-- Settles O22: the presented command completes, and what it issues is its own transaction. -/
theorem anyAddressAndLengthIsAccepted : Obligations.AnyAddressAndLengthIsAccepted := by
  refine ⟨fun s a buffer more hidle hin hk => ?_, fun s a data more hidle hin => ?_⟩
  · rw [step_present hin]
    obtain ⟨t, ht⟩ := exec_completes (i := .readFrame a buffer.length)
      (s := lend (.read a buffer) { s with inputs := more }) hidle hk
    exact ⟨t, ht, exec_log ht, exec_readFrame_buffer_length rfl ht⟩
  · rw [step_present hin]
    obtain ⟨t, ht⟩ := exec_completes (i := .writeFrame a data)
      (s := lend (.write a data) { s with inputs := more }) hidle (busKeepsContract_writeFrame a data _)
    exact ⟨t, ht, exec_log ht, exec_data ht⟩

/-- Settles O31: a successful read's buffer is the list received, so it agrees byte by byte. -/
theorem successfulReadFillsTheBufferInOrder : Obligations.SuccessfulReadFillsTheBufferInOrder := by
  refine ⟨fun s a rd rest hidle ha => ?_, fun s a rd hbusy => ?_, fun s a lent rd more rest hidle hin ha hl => ?_⟩
  · exact ⟨_, exec_readFrame_ok hidle ha rfl, rfl, fun _ => rfl, rfl⟩
  · exact ⟨_, (complete_inFlight _ hbusy).trans (finish_readFrame_ok rfl), rfl, fun _ => rfl, rfl⟩
  · rw [step_present hin]
    exact ⟨_, exec_readFrame_ok hidle ha hl, hl, rfl⟩

end Sys2Proof.Machine
end

