-- ==== Sys2Proof/Proofs/WriteFrame.lean ====
section
/-! PROOF. `writeFrame` by its transaction and its outcome, which ends it in one way whether it is a success or a
failure (41_write_frame.md R120, R124): O18 and O26. -/

namespace Sys2Proof.Machine

/-- The header of either operation, its address bytes by R73's expressions. -/
theorem header_eq_shift_mask (op : Op) (a : Address) :
    header op a =
      [opcodeByte op, BitVec.ofNat 8 ((a.toNat >>> 8) &&& 0xFF), BitVec.ofNat 8 (a.toNat &&& 0xFF)] := by
  rw [← addrHi_toNat_shift_mask, ← addrLo_toNat_mask, BitVec.ofNat_toNat, BitVec.ofNat_toNat,
    BitVec.setWidth_eq, BitVec.setWidth_eq, header]

section writeFrame
variable {s : State} {a : Address} {d : List Byte} {o : BusOutcome}

/-- A write ends by delivering the result of its outcome, and by nothing else (R123: an error as it came). -/
theorem finish_writeFrame :
    finish (.writeFrame a d) o s = .next { s with
      framer := .idle, ended := s.ended ++ [.delivered (resultOf o)] } := by
  cases o <;> rfl

/-- A write answered at once changes the answers and the record of the two ports only. -/
theorem exec_writeFrame_atOnce {rest : List Answer} (hidle : s.framer = .idle)
    (ha : s.answers = .atOnce o :: rest) :
    exec (.writeFrame a d) s = .next { s with
      answers := rest, log := s.log ++ [encode (.writeFrame a d)],
      ended := s.ended ++ [.delivered (resultOf o)] } := by
  rw [exec_atOnce hidle ha, finish_writeFrame, hidle]

/-- The outcome of a write in flight delivers its result. -/
theorem complete_writeFrame (hbusy : s.framer = .inFlight (.writeFrame a d)) :
    complete o s = .next { s with
      framer := .idle, ended := s.ended ++ [.delivered (resultOf o)] } :=
  (complete_inFlight o hbusy).trans finish_writeFrame

end writeFrame

/-- Settles O18: the outcome ends the write, whether it comes at once or by `complete`; the transaction is the encoded
one. -/
theorem writeFrameRunsItsPseudocode : Obligations.WriteFrameRunsItsPseudocode := by
  intro s a d hidle segs
  have hsegs : segs = encode (.writeFrame a d) :=
    congrArg (fun h => [Segment.write h, .write d]) (header_eq_shift_mask .write a).symm
  rw [hsegs]
  refine ⟨fun rd rest ha => exec_writeFrame_atOnce hidle ha, fun e rest ha => exec_writeFrame_atOnce hidle ha,
    fun ha => ?_⟩
  exact ⟨_, exec_later hidle ha, rfl, fun rd => complete_writeFrame rfl, fun e => complete_writeFrame rfl⟩

/-- Settles O26: the first attempt leaves the framer Idle whatever its outcome, so the second runs from there as the
first did, with the next answer. -/
theorem reissuedWriteSendsTheWholeFrameAgain : Obligations.ReissuedWriteSendsTheWholeFrameAgain := by
  intro s a d o o' rest hidle ha
  have hwire : wireOut (encode (.writeFrame a d)) = header .write a ++ d := wireOut_encode _
  exact ⟨_, _, exec_writeFrame_atOnce hidle ha, exec_writeFrame_atOnce hidle rfl, rfl, rfl, rfl, rfl, hwire⟩

end Sys2Proof.Machine
end

