-- ==== Sys2Proof/Proofs/ErrorSource.lean ====
section
/-! PROOF. Where an outcome reaches a step, and what the step then delivers (60_exceptions.md R141): O50. -/

namespace Sys2Proof.Machine

/-- The bus device gives the outcome `o` in the next step: to the call in flight, or at once to the call presented
(10_state.md R31, 20_memory.md R50). -/
def BusGives (o : BusOutcome) (s : State) : Prop :=
  (∃ rest, s.inputs = .complete o :: rest) ∨
  (∃ c rest more, s.inputs = .present c :: rest ∧ s.answers = .atOnce o :: more)

/-- Only the outcome `Err(e)` has the result `Err(e)`. -/
theorem resultOf_eq_err {o : BusOutcome} {e : TransportError} : resultOf o = .err e ↔ o = .err e := by
  cases o <;> simp [resultOf]

/-- A step whose next input is an outcome completes the call in flight with it. -/
theorem step_complete {s : State} {o : BusOutcome} {rest : List Event} (h : s.inputs = .complete o :: rest) :
    step s = complete o { s with inputs := rest } := by
  simp [step, h, onEvent]

section step
variable {s t : State}

/-- A step in which the bus device gives an outcome delivers that outcome's result. -/
theorem step_delivers_of_busGives {o : BusOutcome} (hgives : BusGives o s) (h : step s = .next t) :
    t.ended = s.ended ++ [.delivered (resultOf o)] := by
  rcases hgives with ⟨rest, hin⟩ | ⟨c, rest, more, hin, ha⟩
  · rw [step_complete hin] at h
    obtain ⟨i, -, hfin⟩ := complete_next h
    obtain ⟨-, -, -, -, -, hended⟩ := finish_spec hfin
    exact hended
  · rw [step_present hin] at h
    obtain ⟨hidle, -⟩ := exec_next h
    rw [exec_atOnce hidle ((lend_answers _ _).trans ha)] at h
    obtain ⟨-, -, -, -, -, hended⟩ := finish_spec h
    simpa using hended

/-- A step in which the bus device gives no outcome delivers nothing: it ends no call, or abandons the one in flight. -/
theorem step_ended_cases (h : step s = .next t) :
    (∃ o, BusGives o s) ∨ t.ended = s.ended ∨ t.ended = s.ended ++ [.abandoned] := by
  rcases step_next h with ⟨-, rfl⟩ | ⟨c, rest, hin, hexec⟩ | ⟨o, rest, i, hin, -⟩ | ⟨e, rest, i, -, -, -, rfl⟩ |
    ⟨rest, -, -, rfl⟩ | ⟨b, rest, -, -, rfl⟩ | ⟨rest, -, -, rfl⟩ | ⟨b, rest, -, -, rfl⟩
  case inr.inl =>
    obtain ⟨-, ⟨-, rfl⟩ | ⟨o, more, ha, -⟩⟩ := exec_next hexec
    · exact .inr (.inl (lend_ended _ _))
    · exact .inl ⟨o, .inr ⟨c, rest, more, hin, by simpa using ha⟩⟩
  case inr.inr.inl => exact .inl ⟨o, .inl ⟨rest, hin⟩⟩
  case inr.inr.inr.inl =>
    obtain ⟨-, -, -, -, -, hended⟩ := dropCall_spec i { s with inputs := rest }
    exact .inr (.inr hended)
  all_goals exact .inr (.inl rfl)

end step

/-- Settles O50: a delivery needs an outcome, whose result it is, and only the outcome `Err(e)` has the result
`Err(e)`. -/
theorem errorArisesExactlyFromTheBus : Obligations.ErrorArisesExactlyFromTheBus := by
  intro s t e h
  refine ⟨fun herr => ?_, fun hgives => step_delivers_of_busGives hgives h⟩
  rcases step_ended_cases h with ⟨o, hgives⟩ | hsame | habandoned
  · have hres : resultOf o = .err e := by simpa [step_delivers_of_busGives hgives h] using herr
    rwa [resultOf_eq_err.1 hres] at hgives
  · simp [hsame] at herr
  · simp [habandoned] at herr

end Sys2Proof.Machine
end

