-- ==== Sys2Proof/Proofs/Frame.lean ====
section
/-! PROOF. The header read back, the frame and the segment list read back, and what goes over the wire
(30_encoding.md R70 to R78): O4 to O14. -/

namespace Sys2Proof

-- The header read back

/-- A byte names an operation exactly when it is that operation's opcode. -/
theorem opOfByte_eq_some_iff {b : Byte} {op : Op} : opOfByte b = some op ↔ b = opcodeByte op :=
  ⟨opOfByte_eq_some, fun h => h ▸ opOfByte_opcodeByte op⟩

/-- A byte that is neither opcode names no operation (30_encoding.md R76). -/
theorem opOfByte_eq_none {b : Byte} (hread : b ≠ 0x0F#8) (hwrite : b ≠ 0xF0#8) : opOfByte b = none := by
  simp [opOfByte, opcodeByte, hread, hwrite]

/-- Two bytes join to an address exactly when they are its high and its low byte. -/
theorem joinAddr_eq_iff {hi lo : Byte} {a : Address} : joinAddr hi lo = a ↔ hi = addrHi a ∧ lo = addrLo a := by
  constructor
  · rintro rfl
    simp
  · rintro ⟨rfl, rfl⟩
    exact joinAddr_split a

/-- Three bytes decode to an operation and an address exactly when they are the header of those two. -/
theorem decodeHeader_eq_some_iff {b0 b1 b2 : Byte} {op : Op} {a : Address} :
    decodeHeader b0 b1 b2 = some (op, a) ↔ [b0, b1, b2] = header op a := by
  simp [decodeHeader, opOfByte_eq_some_iff, joinAddr_eq_iff, header]

/-- The header's three bytes decode to what the header was made of. -/
@[simp] theorem decodeHeader_header (op : Op) (a : Address) :
    decodeHeader (opcodeByte op) (addrHi a) (addrLo a) = some (op, a) :=
  decodeHeader_eq_some_iff.2 rfl

/-- Headers are equal only if what they were made of is: each decodes to it. -/
theorem header_injective {op op' : Op} {a a' : Address} (h : header op a = header op' a') : op = op' ∧ a = a' := by
  have hdec : decodeHeader (opcodeByte op) (addrHi a) (addrLo a) = some (op', a') := decodeHeader_eq_some_iff.2 h
  simpa using hdec

/-- The header's address bytes written as parts of a number. -/
theorem header_eq_div_mod (op : Op) (a : Address) :
    header op a = [opcodeByte op, BitVec.ofNat 8 (a.toNat / 256), BitVec.ofNat 8 (a.toNat % 256)] := by
  rw [header, addrHi_eq_ofNat, addrLo_eq_ofNat]

-- The frame read back

/-- What a header and a payload decode to. -/
@[simp] theorem decode_header_append (op : Op) (a : Address) (payload : List Byte) :
    decode (header op a ++ payload) = .instr (commandOf op a payload) := by
  simp [header, decode]

/-- The decoder accepts exactly a header with any payload after it. -/
theorem decode_eq_instr_iff {bs : List Byte} {i : Instr} :
    decode bs = .instr i ↔ ∃ op a payload, bs = header op a ++ payload ∧ i = commandOf op a payload := by
  constructor
  · intro h
    unfold decode at h
    split at h
    · next b0 b1 b2 payload =>
      split at h
      · next op a hdec =>
        refine ⟨op, a, payload, ?_, (Decoded.instr.inj h).symm⟩
        rw [← decodeHeader_eq_some_iff.1 hdec]; rfl
      · cases h
    · cases h
  · rintro ⟨op, a, payload, rfl, rfl⟩
    exact decode_header_append op a payload

/-- A decoded frame holds the command it decoded to, and no other. -/
theorem Decoded.instr?_eq_some_iff {d : Decoded} {i : Instr} : d.instr? = some i ↔ d = .instr i := by
  cases d <;> simp [Decoded.instr?]

/-- A command is the one its own header and payload make (30_encoding.md R70, R74). -/
theorem commandOf_payloadOnWire {i : Instr} {received : List Byte} (hfits : (BusOutcome.ok received).fits i = true) :
    commandOf i.op i.address (payloadOnWire i received) = i := by
  cases i with
  | readFrame a n =>
    have hlen : received.length = n := by simpa [BusOutcome.fits] using hfits
    rw [← hlen]; rfl
  | writeFrame a d => rfl

/-- A command made of a header and a payload has that payload for its frame's. -/
theorem encodeFrame_commandOf (op : Op) (a : Address) (payload : List Byte) :
    (BusOutcome.ok payload).fits (commandOf op a payload) = true ∧
    encodeFrame (commandOf op a payload) payload = header op a ++ payload := by
  cases op with
  | read => exact ⟨by simp [commandOf, BusOutcome.fits], rfl⟩
  | write => exact ⟨rfl, rfl⟩

/-- Settles O8: the frame is the header and the payload the command is made of. -/
theorem encodedFrameDecodesToItsCommand : Obligations.EncodedFrameDecodesToItsCommand := by
  intro i received hfits
  rw [encodeFrame, headerOf, decode_header_append, commandOf_payloadOnWire hfits]

/-- Settles O9: an accepted sequence is a header and a payload, and the payload is what the chip returned or what was
written. -/
theorem decodedFrameIsTheFrameOfItsCommand : Obligations.DecodedFrameIsTheFrameOfItsCommand := by
  intro bs i h
  obtain ⟨op, a, payload, rfl, rfl⟩ := decode_eq_instr_iff.1 h
  obtain ⟨hfits, hframe⟩ := encodeFrame_commandOf op a payload
  exact ⟨payload, hfits, hframe.symm⟩

/-- Settles O5. -/
theorem headerDecodesExactlyWhenEncoded : Obligations.HeaderDecodesExactlyWhenEncoded :=
  fun _ _ _ _ _ => decodeHeader_eq_some_iff

/-- Settles O6: equal headers decode alike. -/
theorem headerIsInjective : Obligations.HeaderIsInjective :=
  fun _ _ _ _ => header_injective

/-- Settles O4: the high byte is the quotient by 256 and the low byte the remainder. -/
theorem addressSplitLosesNothing : Obligations.AddressSplitLosesNothing := by
  intro a
  have hhi := (addrHi a).isLt
  have hlo := (addrLo a).isLt
  refine ⟨by omega, by omega, ?_, ?_, joinAddr_split a⟩
  · rw [addrHi_toNat, addrLo_toNat]; omega
  · rw [← addrHi_toNat_shift_mask, addrHi_toNat, Nat.shiftRight_eq_div_pow]

/-- Settles O7: a first byte that names no operation is rejected by its value, a short sequence by its length. -/
theorem decoderRejectsEverythingElse : Obligations.DecoderRejectsEverythingElse := by
  refine ⟨fun b0 b1 b2 rest hread hwrite => ?_, fun bs hshort => ?_⟩
  · simp [decode, decodeHeader, opOfByte_eq_none hread hwrite]
  · match bs, hshort with
    | [], _ => rfl
    | [_], _ => rfl
    | [_, _], _ => rfl

-- The segment list read back

/-- A command's transaction is read back as that command. -/
@[simp] theorem decodeSegments_encode (i : Instr) : decodeSegments (encode i) = some i := by
  cases i <;> simp [decodeSegments, encode, headerOf, header, payloadSegment, Instr.op, Instr.address]

/-- A list read back as a command is that command's transaction: its first segment is the header, and the second one is
of the operation's kind. -/
theorem encode_of_decodeSegments {segs : List Segment} {i : Instr} (h : decodeSegments segs = some i) :
    segs = encode i := by
  unfold decodeSegments at h
  split at h
  · split at h
    · next hdec => cases h; rw [decodeHeader_eq_some_iff.1 hdec]; rfl
    · cases h
  · split at h
    · next hdec => cases h; rw [decodeHeader_eq_some_iff.1 hdec]; rfl
    · cases h
  · cases h

/-- Settles O10. -/
theorem segmentsDecodeExactlyWhenEncoded : Obligations.SegmentsDecodeExactlyWhenEncoded :=
  fun _ i => ⟨encode_of_decodeSegments, fun h => h ▸ decodeSegments_encode i⟩

-- The wire

/-- The payload of a command's frame has the command's length. -/
theorem payloadOnWire_length {i : Instr} {received : List Byte} (hfits : (BusOutcome.ok received).fits i = true) :
    (payloadOnWire i received).length = i.len := by
  cases i with
  | readFrame a n => simpa [BusOutcome.fits, payloadOnWire, Instr.len] using hfits
  | writeFrame a d => rfl

/-- A frame is its header's three bytes and its payload. -/
theorem encodeFrame_length {i : Instr} {received : List Byte} (hfits : (BusOutcome.ok received).fits i = true) :
    (encodeFrame i received).length = 3 + i.len := by
  rw [encodeFrame, List.length_append, payloadOnWire_length hfits]; rfl

/-- What comes in during a command's transaction is what its second segment receives. -/
@[simp] theorem wireIn_encode (i : Instr) : wireIn (encode i) = (payloadSegment i).inbound := by
  simp [wireIn, encode, Segment.inbound]

/-- The second segment moves L bytes, out or in. -/
theorem payloadSegment_moves_len (i : Instr) :
    (payloadSegment i).outbound.length + (payloadSegment i).inbound = i.len := by
  cases i <;> simp [payloadSegment, Segment.outbound, Segment.inbound, Instr.len]

/-- Settles O11: three header bytes, and L bytes of payload whichever way they go. -/
theorem frameIsThreePlusLBytes : Obligations.FrameIsThreePlusLBytes := by
  intro i received hfits
  have hlen := encodeFrame_length hfits
  have hmoves := payloadSegment_moves_len i
  have hheader : (headerOf i).length = 3 := rfl
  refine ⟨hlen, by omega, ?_⟩
  rw [wireOut_encode, List.length_append, wireIn_encode]
  omega

/-- Settles O12: the outbound bytes are the header and then what the second segment sends. -/
theorem wireCarriesHeaderThenPayloadInOrder : Obligations.WireCarriesHeaderThenPayloadInOrder := by
  refine ⟨fun a d => ⟨?_, by simp [payloadSegment, Segment.inbound]⟩,
    fun a n => ⟨?_, by simp [payloadSegment, Segment.inbound]⟩⟩
  · rw [wireOut_encode, headerOf, header_eq_div_mod]; rfl
  · rw [wireOut_encode, headerOf, header_eq_div_mod]; rfl

/-- Settles O13: the vectors are decoded by computation. -/
theorem writtenOutWordsDecodeAsTheSpecSays : Obligations.WrittenOutWordsDecodeAsTheSpecSays := by
  unfold Obligations.WrittenOutWordsDecodeAsTheSpecSays
  decide

-- The opcode table's words

/-- A 24-bit word's three bytes, most significant first. -/
theorem bytesOfNumber_word (w : BitVec 24) :
    bytesOfNumber 3 w.toNat = [w.extractLsb' 16 8, w.extractLsb' 8 8, w.extractLsb' 0 8] := rfl

/-- The two lower bytes of a word join to its bits 15:0. -/
theorem joinAddr_word (w : BitVec 24) : joinAddr (w.extractLsb' 8 8) (w.extractLsb' 0 8) = w.extractLsb' 0 16 := by
  apply BitVec.eq_of_toNat_eq
  simp only [joinAddr_toNat, BitVec.extractLsb'_toNat, Nat.shiftRight_eq_div_pow]
  omega

/-- Three bytes with no payload after them hold the command of the header they are. -/
theorem decode_three_bytes_iff {b0 b1 b2 : Byte} {i : Instr} :
    decode [b0, b1, b2] = .instr i ↔ ∃ op, b0 = opcodeByte op ∧ i = commandOf op (joinAddr b1 b2) [] := by
  cases hop : opOfByte b0 with
  | none =>
    have hno : ∀ op, b0 ≠ opcodeByte op := fun op h => by simp [h] at hop
    simp [decode, decodeHeader, hop, hno]
  | some op =>
    obtain rfl := opOfByte_eq_some hop
    constructor
    · intro h
      exact ⟨op, rfl, by simpa [decode, decodeHeader, eq_comm] using h⟩
    · rintro ⟨op', hop', rfl⟩
      simp [decode, decodeHeader, hop']

/-- Settles O14: the opcode is the word's top byte, and the payload is empty. -/
theorem tableWordsDecodeToTheirRows : Obligations.TableWordsDecodeToTheirRows := by
  intro w i
  have hword : decodeTableWord 24 w.toNat = some i ↔
      ∃ op, w.extractLsb' 16 8 = opcodeByte op ∧ i = commandOf op (w.extractLsb' 0 16) [] := by
    rw [decodeTableWord, Decoded.instr?_eq_some_iff, bytesOfNumber_word, decode_three_bytes_iff, joinAddr_word]
  rw [hword]
  constructor
  · rintro ⟨_ | _, hop, rfl⟩
    · exact .inl ⟨hop, rfl⟩
    · exact .inr ⟨hop, rfl⟩
  · rintro (⟨hop, rfl⟩ | ⟨hop, rfl⟩)
    · exact ⟨.read, hop, rfl⟩
    · exact ⟨.write, hop, rfl⟩

end Sys2Proof
end

