-- ==== Sys2Proof/Proofs/Calls.lean ====
section
/-! PROOF. What running a command does, changes and does not depend on (10_state.md section 5, 20_memory.md,
40_read_frame.md, 41_write_frame.md): O15, O16, O19 to O21, O23 to O25, O27, O28, O44 and O55. -/

namespace Sys2Proof.Machine

-- When a command runs and when it stops

/-- From Idle a command stops with the fault when the bus device breaks its contract at once. -/
theorem exec_fault {i : Instr} {s : State} (hidle : s.framer = .idle) (hk : busKeepsContract i s = false) :
    exec i s = .fault .busContractBroken := by
  match ha : s.answers with
  | [] => simp [busKeepsContract, ha] at hk
  | .later :: rest => simp [busKeepsContract, ha] at hk
  | .atOnce o :: rest =>
    rw [exec_atOnce hidle ha]
    exact finish_stops _ (by simpa [busKeepsContract, ha] using hk)

/-- Everything `exec` can answer: refused in flight; from Idle, a next state when the contract is kept and the fault
when it is broken. -/
theorem exec_cases (i : Instr) (s : State) :
    (∃ c, s.framer = .inFlight c ∧ exec i s = .refused .callInFlight) ∨
    (s.framer = .idle ∧ busKeepsContract i s = true ∧ ∃ t, exec i s = .next t) ∨
    (s.framer = .idle ∧ busKeepsContract i s = false ∧ exec i s = .fault .busContractBroken) := by
  cases hf : s.framer with
  | inFlight c => exact .inl ⟨c, rfl, exec_inFlight hf⟩
  | idle =>
    cases hk : busKeepsContract i s with
    | true => exact .inr (.inl ⟨rfl, rfl, exec_completes hf hk⟩)
    | false => exact .inr (.inr ⟨rfl, rfl, exec_fault hf hk⟩)

/-- Settles O21: of the three cases only the kept contract has a next state. -/
theorem execCompletesForEveryOperand : Obligations.ExecCompletesForEveryOperand := by
  intro i s
  rcases exec_cases i s with ⟨c, hbusy, h⟩ | ⟨hidle, hk, hnext⟩ | ⟨hidle, hk, h⟩
  · simp [h, hbusy]
  · simp [hidle, hk, hnext]
  · simp [h, hk]

/-- Settles O23: the three cases exclude one another, and two of them are the two stops. -/
theorem execStopsOnlyForTwoReasons : Obligations.ExecStopsOnlyForTwoReasons := by
  intro i s
  rcases exec_cases i s with ⟨c, hbusy, h⟩ | ⟨hidle, hk, t, h⟩ | ⟨hidle, hk, h⟩
  · simp [h, hbusy, eq_comm (a := Refusal.callInFlight)]
  · simp [h, hidle, hk]
  · simp [h, hidle, hk]

-- A step that runs a command

/-- Settles O15. -/
theorem stepRunsThePresentedCall : Obligations.StepRunsThePresentedCall :=
  fun _ _ _ h => step_present h

/-- A table word that is a command puts a call of it before the inputs. -/
theorem withFetchWord_some {s : State} {nbits w : Nat} {i : Instr} (h : decodeTableWord nbits w = some i) :
    s.withFetchWord nbits w = { s with inputs := .present (callOfCommand i) :: s.inputs } := by
  simp [State.withFetchWord, presentWord, h]

/-- A table word that is no command presents nothing. -/
theorem withFetchWord_none {s : State} {nbits w : Nat} (h : decodeTableWord nbits w = none) :
    s.withFetchWord nbits w = s := by
  simp [State.withFetchWord, presentWord, h]

/-- Settles O16: the call put first is a call of the word's command. -/
theorem stepRunsTheDecodedWord : Obligations.StepRunsTheDecodedWord := by
  refine ⟨fun s nbits w i h => ?_, fun s nbits w h => withFetchWord_none h⟩
  rw [withFetchWord_some h, step_present rfl, commandOfCall_callOfCommand]

-- What a command leaves unchanged

/-- What running a command has in common for both operations: the answers move on by one, its transaction is issued,
and it has ended with a result or is in flight with nothing else touched. -/
theorem exec_spec {i : Instr} {s t : State} (h : exec i s = .next t) :
    t.data = s.data ∧ t.inputs = s.inputs ∧ t.answers = s.answers.tail ∧ t.log = s.log ++ [encode i] ∧
    ((t.framer = .idle ∧ ∃ r, t.ended = s.ended ++ [.delivered r]) ∨
     (t.framer = .inFlight i ∧ t.ended = s.ended)) := by
  obtain ⟨-, ⟨-, rfl⟩ | ⟨o, rest, ha, hfin⟩⟩ := exec_next h
  · exact ⟨rfl, rfl, rfl, rfl, .inr ⟨rfl, rfl⟩⟩
  · obtain ⟨hframer, hdata, hinputs, hanswers, hlog, hended⟩ := finish_spec hfin
    exact ⟨hdata, hinputs, by rw [hanswers, ha]; rfl, hlog, .inl ⟨hframer, _, hended⟩⟩

/-- A read that runs holds L bytes once it has ended, and has touched neither buffer nor draws while in flight. -/
theorem exec_readFrame_buffer {s t : State} {a : Address} {n : Nat} (h : exec (.readFrame a n) s = .next t) :
    (t.framer = .idle → t.buffer.length = n) ∧
    (t.framer = .inFlight (.readFrame a n) → t.buffer = s.buffer ∧ t.draws = s.draws) := by
  obtain ⟨-, ⟨-, rfl⟩ | ⟨o, rest, -, hfin⟩⟩ := exec_next h
  · exact ⟨fun hidle => (by cases hidle), fun _ => ⟨rfl, rfl⟩⟩
  · obtain ⟨hframer, -⟩ := finish_spec hfin
    exact ⟨fun _ => finish_readFrame_buffer_length hfin, fun hbusy => by rw [hframer] at hbusy; cases hbusy⟩

/-- A write that runs touches neither the read buffer nor the draws. -/
theorem exec_writeFrame_buffer {s t : State} {a : Address} {d : List Byte} (h : exec (.writeFrame a d) s = .next t) :
    t.buffer = s.buffer ∧ t.draws = s.draws := by
  obtain ⟨-, ⟨-, rfl⟩ | ⟨o, rest, -, hfin⟩⟩ := exec_next h
  · exact ⟨rfl, rfl⟩
  · rw [finish_writeFrame] at hfin
    cases hfin
    exact ⟨rfl, rfl⟩

/-- Settles O19. -/
theorem readFrameLeavesTheRestUnchanged : Obligations.ReadFrameLeavesTheRestUnchanged := by
  intro s t a n h
  obtain ⟨hdata, hinputs, hanswers, hlog, hend⟩ := exec_spec h
  obtain ⟨hended, hbusy⟩ := exec_readFrame_buffer h
  refine ⟨hdata, hinputs, hanswers, hlog, ?_⟩
  rcases hend with ⟨hf, hr⟩ | ⟨hf, he⟩
  · exact .inl ⟨hf, hended hf, hr⟩
  · obtain ⟨hbuffer, hdraws⟩ := hbusy hf
    exact .inr ⟨hf, hbuffer, hdraws, he⟩

/-- Settles O20. -/
theorem writeFrameLeavesTheRestUnchanged : Obligations.WriteFrameLeavesTheRestUnchanged := by
  intro s t a d h
  obtain ⟨hdata, hinputs, hanswers, hlog, hend⟩ := exec_spec h
  obtain ⟨hbuffer, hdraws⟩ := exec_writeFrame_buffer h
  exact ⟨hbuffer, hdata, hinputs, hdraws, hanswers, hlog, hend⟩

-- The transaction a command issues

/-- Settles O24: only running a command issues a transaction; every ending leaves the log. -/
theorem oneTransactionPerCall : Obligations.OneTransactionPerCall := by
  refine ⟨fun i s t h => ⟨exec_log h, rfl⟩, fun o s t h => ?_, fun s t h => ?_, fun s => ?_⟩
  · obtain ⟨i, -, hfin⟩ := complete_next h
    obtain ⟨-, -, -, -, hlog, -⟩ := finish_spec hfin
    exact hlog
  · obtain ⟨i, -, rfl⟩ := cancel_next h
    obtain ⟨-, -, -, -, hlog, -⟩ := dropCall_spec i s
    exact hlog
  · rcases resetFramer_cases s with ⟨-, h⟩ | ⟨i, -, h⟩
    · rw [h]
    · obtain ⟨-, -, -, -, hlog, -⟩ := dropCall_spec i s
      rw [h, hlog]

/-- Settles O25: the transaction is the encoded one, whose second segment is there for every length. -/
theorem zeroLengthCallStillTransacts : Obligations.ZeroLengthCallStillTransacts :=
  fun _ _ _ => ⟨fun h => ⟨exec_log h, rfl⟩, fun h => ⟨exec_log h, rfl⟩⟩

/-- Settles O27: the first read leaves the framer Idle, so the second runs with the next answer. -/
theorem repeatedReadIsNotAnsweredFromTheFirst : Obligations.RepeatedReadIsNotAnsweredFromTheFirst := by
  intro s a rd rd' rest hidle ha hl
  exact ⟨_, _, exec_readFrame_ok hidle ha rfl, exec_readFrame_ok hidle rfl hl, rfl, rfl, List.append_assoc _ _ _⟩

/-- Settles O55: what a command appends to the log is its own transaction. -/
theorem transactionDependsOnTheCommandOnly : Obligations.TransactionDependsOnTheCommandOnly := by
  intro i s s' t t' h h'
  rw [exec_log h, exec_log h', List.drop_left, List.drop_left]

-- What the ending of a command depends on

/-- How an outcome ends a command depends on its operation and its length only. -/
theorem finish_congr {i j : Instr} (hop : i.op = j.op) (hlen : i.len = j.len) (o : BusOutcome) (s : State) :
    finish i o s = finish j o s := by
  cases i with
  | readFrame a n =>
    cases j with
    | readFrame b m =>
      obtain rfl : n = m := hlen
      cases o <;> rfl
    | writeFrame b d => cases hop
  | writeFrame a d =>
    cases j with
    | readFrame b m => cases hop
    | writeFrame b d' => rw [finish_writeFrame, finish_writeFrame]

/-- An outcome that ends a command reads neither the log nor the framer: the one is kept and the other set to Idle. -/
theorem finish_with_log_framer (i : Instr) (o : BusOutcome) (s : State) (log : List (List Segment)) (f : Framer) :
    finish i o { s with log := log, framer := f } = mapNext (fun t => { t with log := log }) (finish i o s) := by
  cases i with
  | readFrame a n =>
    cases o with
    | ok rd =>
      by_cases hl : rd.length = n
      · rw [finish_readFrame_ok hl, finish_readFrame_ok hl]; rfl
      · simp [finish, hl, mapNext]
    | err e => rfl
  | writeFrame a d => rw [finish_writeFrame, finish_writeFrame]; rfl

/-- A next state under `mapNext` comes from a next state. -/
theorem mapNext_eq_next {g : State → State} {r : Step} {t : State} (h : mapNext g r = .next t) :
    ∃ s, r = .next s ∧ t = g s := by
  cases r with
  | next s => exact ⟨s, rfl, (Host.Outcome.next.inj h).symm⟩
  | fault x => cases h
  | refused x => cases h

/-- Settles O28: both commands are answered alike, and the outcome looks at their operation and length only. -/
theorem sequencingIgnoresAddressAndPayload : Obligations.SequencingIgnoresAddressAndPayload := by
  intro i j s t hop hlen h
  obtain ⟨hidle, ⟨ha, rfl⟩ | ⟨o, rest, ha, hfin⟩⟩ := exec_next h
  · exact ⟨_, exec_later hidle ha, rfl, rfl, rfl, rfl, rfl, rfl, .inr ⟨rfl, rfl⟩⟩
  · rw [finish_with_log_framer i o { s with answers := rest }] at hfin
    obtain ⟨t₀, ht₀, rfl⟩ := mapNext_eq_next hfin
    have hj : exec j s = .next { t₀ with log := s.log ++ [encode j] } := by
      rw [exec_atOnce hidle ha, finish_with_log_framer j o { s with answers := rest }, ← finish_congr hop hlen, ht₀]
      rfl
    obtain ⟨hframer, -⟩ := finish_spec ht₀
    exact ⟨_, hj, rfl, rfl, rfl, rfl, rfl, rfl, .inl ⟨hframer, hframer⟩⟩

/-- Settles O44: the outcome ends the same command from the same state, at once or by `complete`; in flight both are
refused. -/
theorem bigStepIsPresentThenComplete : Obligations.BigStepIsPresentThenComplete := by
  intro i s o rest ha
  rcases present_cases i s with ⟨hidle, -⟩ | ⟨c, hbusy, -⟩
  · rw [exec_atOnce hidle ha, exec_later (s := { s with answers := .later :: rest }) hidle (.inr ⟨rest, rfl⟩)]
    rfl
  · rw [exec_inFlight hbusy, exec_inFlight (s := { s with answers := .later :: rest }) hbusy]
    rfl

end Sys2Proof.Machine
end

