-- ==== Sys2Proof/Proofs/Endings.lean ====
section
/-! PROOF. How a call ends, what each input does when it lands, and what a step issues and delivers (10_state.md
section 5, 60_exceptions.md, 70_reset_and_hazards.md): O29, O30, O32 to O38, O43, O47 to O49 and O56. -/

namespace Sys2Proof.Machine

section step
variable {s t : State} {rest : List Event} {bytes : List Byte}

/-- The first input lands on the state that has it no more. -/
theorem step_input {e : Event} (h : s.inputs = e :: rest) : step s = onEvent e { s with inputs := rest } := by
  simp [step, h]

/-- The cancel lands. -/
theorem step_cancel (h : s.inputs = .cancel :: rest) : step s = cancel { s with inputs := rest } :=
  step_input h

/-- A reset lands. -/
theorem step_reset (h : s.inputs = .reset :: rest) : step s = .next (resetFramer { s with inputs := rest }) :=
  step_input h

/-- The caller's write of its buffer lands. -/
theorem step_setBuffer (h : s.inputs = .setBuffer bytes :: rest) :
    step s = if bufferInUse s then .refused .operandInUse else .next { s with inputs := rest, buffer := bytes } :=
  step_input h

/-- The caller's read of its buffer lands. -/
theorem step_readBuffer (h : s.inputs = .readBuffer :: rest) :
    step s = if bufferInUse s then .refused .operandInUse else .next { s with inputs := rest } :=
  step_input h

/-- The caller's change of its data lands. -/
theorem step_setData (h : s.inputs = .setData bytes :: rest) :
    step s = if dataInUse s then .refused .operandInUse else .next { s with inputs := rest, data := bytes } :=
  step_input h

/-- The cancel of a call in flight drops it. -/
theorem step_cancel_inFlight {i : Instr} (hbusy : s.framer = .inFlight i) (h : s.inputs = .cancel :: rest) :
    step s = .next (dropCall i { s with inputs := rest }) := by
  simp [step_cancel h, cancel, hbusy]

/-- A reset drops a call in flight. -/
theorem step_reset_inFlight {i : Instr} (hbusy : s.framer = .inFlight i) (h : s.inputs = .reset :: rest) :
    step s = .next (dropCall i { s with inputs := rest }) := by
  simp [step_reset h, resetFramer, hbusy]

/-- A reset when Idle is taken from the inputs, and nothing else happens. -/
theorem step_reset_idle (hidle : s.framer = .idle) (h : s.inputs = .reset :: rest) :
    step s = .next { s with inputs := rest } := by
  simp [step_reset h, resetFramer, hidle]

/-- The outcome of a command in flight lands and ends it. -/
theorem step_complete_inFlight {i : Instr} {o : BusOutcome} (hbusy : s.framer = .inFlight i)
    (h : s.inputs = .complete o :: rest) : step s = finish i o { s with inputs := rest } :=
  (step_complete h).trans (complete_inFlight o hbusy)

/-- A call presented in flight is refused, whatever it is. -/
theorem step_present_inFlight {c : Instr} {call : Call} (hbusy : s.framer = .inFlight c)
    (h : s.inputs = .present call :: rest) : step s = .refused .callInFlight :=
  (step_present h).trans (exec_inFlight ((lend_framer _ _).trans hbusy))

end step

-- The outcome, the cancel and the reset

/-- Settles O29: the outcome ends the command in flight, by its operation and by success or failure. -/
theorem outcomeEndsTheCallInFlight : Obligations.OutcomeEndsTheCallInFlight := by
  intro s rest o h
  refine ⟨fun a rd hbusy ho => ?_, fun a n e hbusy ho => ?_, fun a d rd hbusy ho => ?_, fun a d e hbusy ho => ?_⟩
  all_goals rw [step_complete_inFlight hbusy h, ho]
  · exact finish_readFrame_ok rfl
  · exact ⟨_, anyBytes_length s.draws n, finish_readFrame_err e⟩
  · exact finish_writeFrame
  · exact finish_writeFrame

/-- The error of the bus device ends every command. -/
theorem finish_err_completes (i : Instr) (e : TransportError) (s : State) : ∃ t, finish i (.err e) s = .next t :=
  (finish_completes i (.err e) s).2 (by cases i <;> rfl)

/-- Another error ends a command in the same way, but for the value delivered. -/
theorem finish_err_other {i : Instr} {e : TransportError} (e' : TransportError) {s t : State}
    (h : finish i (.err e) s = .next t) :
    finish i (.err e') s = .next { t with ended := s.ended ++ [.delivered (.err e')] } := by
  cases i with
  | readFrame a n => rw [finish_readFrame_err] at h ⊢; cases h; rfl
  | writeFrame a d => rw [finish_writeFrame] at h ⊢; cases h; rfl

/-- Settles O30: an error ends every command, its value is delivered as it came, and nothing else depends on it. -/
theorem errorIsDeliveredUnchanged : Obligations.ErrorIsDeliveredUnchanged := by
  refine ⟨fun i e rest s hidle ha => ?_, fun i e s hbusy => ?_, fun e e' s t h => ?_⟩
  · rw [exec_atOnce hidle ha]
    obtain ⟨t, hfin⟩ := finish_err_completes i e
      { s with answers := rest, log := s.log ++ [encode i], framer := .inFlight i }
    obtain ⟨hframer, -, -, -, hlog, hended⟩ := finish_spec hfin
    exact ⟨t, hfin, hframer, hended, hlog⟩
  · rw [complete_inFlight _ hbusy]
    obtain ⟨t, hfin⟩ := finish_err_completes i e s
    obtain ⟨hframer, -, -, -, hlog, hended⟩ := finish_spec hfin
    exact ⟨t, hfin, hframer, hended, hlog⟩
  · obtain ⟨i, hbusy, hfin⟩ := complete_next h
    rw [complete_inFlight _ hbusy, finish_err_other e' hfin]

/-- Settles O32: the dropped call draws a read's buffer afresh and leaves a write's data. -/
theorem cancelEndsTheCallWithoutResult : Obligations.CancelEndsTheCallWithoutResult := by
  intro s rest h
  refine ⟨fun a n hbusy => ⟨_, anyBytes_length s.draws n, ?_⟩, fun a d hbusy => ?_⟩
  · rw [step_cancel_inFlight hbusy h]; rfl
  · rw [step_cancel_inFlight hbusy h]; rfl

/-- However the framer stands, a reset leaves it Idle and sends nothing. -/
theorem resetFramer_idle (s : State) : (resetFramer s).framer = .idle ∧ (resetFramer s).log = s.log := by
  rcases resetFramer_cases s with ⟨hidle, h⟩ | ⟨i, -, h⟩
  · rw [h]; exact ⟨hidle, rfl⟩
  · obtain ⟨hframer, -, -, -, hlog, -⟩ := dropCall_spec i s
    rw [h]; exact ⟨hframer, hlog⟩

/-- Settles O33: in flight the reset and the cancel both drop the call. -/
theorem resetIsCancelInFlightAndNothingWhenIdle : Obligations.ResetIsCancelInFlightAndNothingWhenIdle := by
  intro s rest h
  refine ⟨fun c hbusy => ?_, fun hidle => step_reset_idle hidle h, ⟨_, step_reset h, resetFramer_idle _⟩⟩
  rw [step_reset_inFlight hbusy h, step_cancel_inFlight (s := { s with inputs := .cancel :: rest }) hbusy rfl]

/-- Settles O34: the reset state is a literal, with no input to land. -/
theorem resetStateIsIdle : Obligations.ResetStateIsIdle :=
  ⟨rfl, rfl, rfl, rfl, rfl, rfl, rfl, rfl, rfl⟩

/-- Settles O56: every ending leaves the framer Idle, where a command runs if the bus device keeps its contract. -/
theorem afterAnyEndingTheNextCallRuns : Obligations.AfterAnyEndingTheNextCallRuns := by
  intro s t o h
  have hidle : t.framer = .idle := by
    rcases h with h | h | rfl
    · obtain ⟨i, -, hfin⟩ := complete_next h
      obtain ⟨hframer, -⟩ := finish_spec hfin
      exact hframer
    · obtain ⟨i, -, rfl⟩ := cancel_next h
      obtain ⟨hframer, -⟩ := dropCall_spec i s
      exact hframer
    · obtain ⟨hframer, -⟩ := resetFramer_idle s
      exact hframer
  refine ⟨hidle, fun i hk => ?_⟩
  obtain ⟨u, hu⟩ := exec_completes hidle hk
  exact ⟨u, hu, exec_log hu⟩

-- What is refused, and what is a fault

/-- Settles O35. -/
theorem secondCallInFlightIsRefused : Obligations.SecondCallInFlightIsRefused :=
  fun _ _ _ _ => step_present_inFlight

/-- Settles O36: an outcome and a cancel look for a call in flight, and there is none. -/
theorem idleHasNoCompleteOrCancel : Obligations.IdleHasNoCompleteOrCancel := by
  intro s rest hidle
  refine ⟨fun o h => ?_, fun h => ?_⟩
  · simp [step_complete h, complete, hidle]
  · simp [step_cancel h, cancel, hidle]

/-- Settles O37: the outcome does not fit the read, at once or later. -/
theorem wrongReadLengthIsAFault : Obligations.WrongReadLengthIsAFault := by
  intro s a n rd hl
  have hfits : (BusOutcome.ok rd).fits (.readFrame a n) = false := by simpa [BusOutcome.fits] using hl
  refine ⟨fun hbusy => ?_, fun rest hidle ha => ?_⟩
  · rw [complete_inFlight _ hbusy, finish_stops _ hfits]
  · rw [exec_atOnce hidle ha, finish_stops _ hfits]

/-- Settles O38: a read in flight holds the buffer, a write the data, and an idle framer neither. -/
theorem touchingALentOperandIsRefused : Obligations.TouchingALentOperandIsRefused := by
  intro s bytes rest a n d
  refine ⟨fun hf => ⟨?_, fun h => ?_⟩, fun hf => ⟨fun h => ?_, fun h => ?_, fun h => ?_⟩,
    fun hf => ⟨fun h => ?_, fun h => ?_, fun h => ?_⟩⟩
  · rintro (h | h)
    · simp [step_setBuffer h, bufferInUse, hf]
    · simp [step_readBuffer h, bufferInUse, hf]
  · simp [step_setData h, dataInUse, hf]
  · simp [step_setData h, dataInUse, hf]
  · simp [step_setBuffer h, bufferInUse, hf]
  · simp [step_readBuffer h, bufferInUse, hf]
  · simp [step_setBuffer h, bufferInUse, hf]
  · simp [step_readBuffer h, bufferInUse, hf]
  · simp [step_setData h, dataInUse, hf]

-- What any step issues, ends and leaves

/-- Settles O48: a presented call runs its command; every other input leaves the log. -/
theorem onlyAPresentedCallIssuesATransaction : Obligations.OnlyAPresentedCallIssuesATransaction := by
  intro s t h
  rcases step_next h with ⟨hin, rfl⟩ | ⟨c, rest, hin, hexec⟩ | ⟨o, rest, i, hin, -, hfin⟩ |
    ⟨e, rest, i, hin, he, -, rfl⟩ | ⟨rest, hin, -, rfl⟩ | ⟨b, rest, hin, -, rfl⟩ | ⟨rest, hin, -, rfl⟩ |
    ⟨b, rest, hin, -, rfl⟩
  case inr.inl =>
    obtain ⟨hidle, -⟩ := exec_next hexec
    exact .inr ⟨c, rest, hin, by simpa using hidle, by simpa using exec_log hexec⟩
  case inr.inr.inl =>
    obtain ⟨-, -, -, -, hlog, -⟩ := finish_spec hfin
    exact .inl ⟨hlog, by simp [hin]⟩
  case inr.inr.inr.inl =>
    obtain ⟨-, -, -, -, hlog, -⟩ := dropCall_spec i { s with inputs := rest }
    exact .inl ⟨hlog, by rcases he with rfl | rfl <;> simp [hin]⟩
  all_goals exact .inl ⟨rfl, by simp [hin]⟩

/-- Settles O49: a delivery is an outcome's; a call ends without a result only when it is dropped. -/
theorem resultsComeOnlyFromOutcomes : Obligations.ResultsComeOnlyFromOutcomes := by
  intro s t h
  rcases step_next h with ⟨-, rfl⟩ | ⟨c, rest, hin, hexec⟩ | ⟨o, rest, i, hin, -, -⟩ | ⟨e, rest, i, hin, he, hbusy, rfl⟩ |
    ⟨rest, -, -, rfl⟩ | ⟨b, rest, -, -, rfl⟩ | ⟨rest, -, -, rfl⟩ | ⟨b, rest, -, -, rfl⟩
  case inr.inl =>
    obtain ⟨-, ⟨-, rfl⟩ | ⟨o, more, ha, -⟩⟩ := exec_next hexec
    · exact .inl (lend_ended _ _)
    · have hgives : BusGives o s := .inr ⟨c, rest, more, hin, by simpa using ha⟩
      exact .inr (.inl ⟨o, step_delivers_of_busGives hgives h, hgives⟩)
  case inr.inr.inl =>
    have hgives : BusGives o s := .inl ⟨rest, hin⟩
    exact .inr (.inl ⟨o, step_delivers_of_busGives hgives h, hgives⟩)
  case inr.inr.inr.inl =>
    obtain ⟨-, -, -, -, -, hended⟩ := dropCall_spec i { s with inputs := rest }
    refine .inr (.inr ⟨hended, i, rest, hbusy, ?_⟩)
    rcases he with rfl | rfl
    · exact .inl hin
    · exact .inr hin
  all_goals exact .inl rfl

/-- Settles O47: a call in flight meets no command that runs; its outcome, a cancel and a reset end it, and the caller's
touches leave it. -/
theorem onlyOutcomeCancelOrResetEndsACall : Obligations.OnlyOutcomeCancelOrResetEndsACall := by
  intro s t c hbusy h
  rcases step_next h with ⟨hin, rfl⟩ | ⟨c, rest, hin, hexec⟩ | ⟨o, rest, i, hin, -, hfin⟩ |
    ⟨e, rest, i, hin, he, -, rfl⟩ | ⟨rest, -, hidle, -⟩ | ⟨b, rest, hin, -, rfl⟩ | ⟨rest, hin, -, rfl⟩ |
    ⟨b, rest, hin, -, rfl⟩
  case inr.inl =>
    rw [step_present_inFlight hbusy hin] at h
    cases h
  case inr.inr.inl =>
    obtain ⟨hframer, -⟩ := finish_spec hfin
    exact .inr ⟨hframer, _, rest, hin, .inr (.inr ⟨o, rfl⟩)⟩
  case inr.inr.inr.inl =>
    obtain ⟨hframer, -⟩ := dropCall_spec i { s with inputs := rest }
    exact .inr ⟨hframer, e, rest, hin, he.imp_right .inl⟩
  case inr.inr.inr.inr.inl =>
    rw [hbusy] at hidle
    cases hidle
  all_goals exact .inl ⟨hbusy, rfl, rfl, by simp [hin]⟩

/-- A step changes the data only when a write is presented or the caller sets it. -/
theorem step_data {s t : State} (hwrite : ∀ a d, s.inputs.head? ≠ some (.present (.write a d)))
    (hset : ∀ d, s.inputs.head? ≠ some (.setData d)) (h : step s = .next t) : t.data = s.data := by
  rcases step_next h with ⟨-, rfl⟩ | ⟨c, rest, hin, hexec⟩ | ⟨o, rest, i, -, -, hfin⟩ | ⟨e, rest, i, -, -, -, rfl⟩ |
    ⟨rest, -, -, rfl⟩ | ⟨b, rest, -, -, rfl⟩ | ⟨rest, -, -, rfl⟩ | ⟨b, rest, hin, -, rfl⟩
  case inr.inl =>
    rw [exec_data hexec]
    cases c with
    | read a b => rfl
    | write a d => exact absurd (by rw [hin]; rfl) (hwrite a d)
  case inr.inr.inl =>
    obtain ⟨-, hdata, -⟩ := finish_spec hfin
    exact hdata
  case inr.inr.inr.inl =>
    obtain ⟨-, hdata, -⟩ := dropCall_spec i { s with inputs := rest }
    exact hdata
  case inr.inr.inr.inr.inr.inr.inr => exact absurd (by rw [hin]; rfl) (hset b)
  all_goals rfl

/-- Settles O43: a write's data is lent and sent as it stands, and only the caller sets it, when no write holds it. -/
theorem theDataIsNeverChangedByTheBlock : Obligations.TheDataIsNeverChangedByTheBlock := by
  refine ⟨fun s t a d rest hin h => ?_, fun s t d rest hin h => ?_, fun s t hwrite hset h => step_data hwrite hset h,
    fun s a d d' rest hbusy hin => ?_⟩
  · rw [step_present hin] at h
    exact ⟨exec_data h, exec_log h⟩
  · rw [step_setData hin] at h
    split at h
    · cases h
    · cases h; exact ⟨rfl, rfl⟩
  · simp [step_setData hin, dataInUse, hbusy]

end Sys2Proof.Machine
end

