-- ==== Sys2Proof/Proofs/Invariant.lean ====
section
/-! PROOF. The invariant: it holds at reset, every step keeps it, so it holds along every run (10_state.md section 2,
20_memory.md section 4, 60_exceptions.md section 3): O39 to O42. -/

namespace Sys2Proof.Machine

section endings
variable {s t : State}

/-- Every command's transaction has one of the two shapes. -/
@[simp] theorem transactionWf_encode (i : Instr) : transactionWf (encode i) = true := by
  cases i <;> rfl

/-- One call is in flight. -/
theorem callsInFlight_inFlight {i : Instr} (h : s.framer = .inFlight i) : callsInFlight s = 1 := by
  simp [callsInFlight, h]

/-- No call is in flight. -/
theorem callsInFlight_idle (h : s.framer = .idle) : callsInFlight s = 0 := by
  simp [callsInFlight, h]

/-- An idle framer holds nothing. -/
theorem heldByCall_idle (h : s.framer = .idle) : heldByCall s := by
  simp [heldByCall, h]

/-- Whatever ends the call in flight once, and issues nothing, keeps the invariant. -/
theorem Inv.endCall {i : Instr} {x : Ending} (hinv : Inv s) (hbusy : s.framer = .inFlight i)
    (hidle : t.framer = .idle) (hlog : t.log = s.log) (hended : t.ended = s.ended ++ [x]) : Inv t where
  held := heldByCall_idle hidle
  shapes := by rw [hlog]; exact hinv.shapes
  endings := by
    have hcount := hinv.endings
    rw [callsInFlight_inFlight hbusy] at hcount
    rw [callsInFlight_idle hidle, hlog, hended, hcount, List.length_append]
    rfl

/-- What neither the framer nor the ports see, and what a call in flight does not hold, the invariant does not see. -/
theorem Inv.of_same_ports (hinv : Inv s) (hframer : t.framer = s.framer) (hlog : t.log = s.log)
    (hended : t.ended = s.ended) (hbuffer : bufferInUse s = true → t.buffer = s.buffer)
    (hdata : dataInUse s = true → t.data = s.data) : Inv t where
  held := by
    have hheld := hinv.held
    unfold heldByCall at hheld ⊢
    rw [hframer, hlog]
    cases hf : s.framer with
    | idle => trivial
    | inFlight i =>
      rw [hf] at hheld
      cases i with
      | readFrame a n => rw [hbuffer (by simp [bufferInUse, hf])]; exact hheld
      | writeFrame a d => rw [hdata (by simp [dataInUse, hf])]; exact hheld
  shapes := by rw [hlog]; exact hinv.shapes
  endings := by
    have hcalls : callsInFlight t = callsInFlight s := by simp [callsInFlight, hframer]
    rw [hlog, hended, hcalls]
    exact hinv.endings

/-- The invariant does not see the inputs to come. -/
theorem Inv.takeInput (hinv : Inv s) (rest : List Event) : Inv { s with inputs := rest } :=
  hinv.of_same_ports rfl rfl rfl (fun _ => rfl) (fun _ => rfl)

/-- A call presented to an idle framer is in flight holding what the caller lent with it, its transaction the last. -/
theorem Inv.present (hinv : Inv s) (hidle : s.framer = .idle) (c : Call) (answers : List Answer) :
    Inv { lend c s with
      answers := answers, log := s.log ++ [encode (commandOfCall c)], framer := .inFlight (commandOfCall c) } where
  held := by cases c <;> simp [heldByCall, commandOfCall]
  shapes := by
    intro segs hmem
    rcases List.mem_append.1 hmem with hold | hnew
    · exact hinv.shapes segs hold
    · rw [List.mem_singleton.1 hnew]; exact transactionWf_encode _
  endings := by
    have hcount := hinv.endings
    rw [callsInFlight_idle hidle] at hcount
    simp [callsInFlight, hcount]

/-- A presented call keeps the invariant, answered at once or later. -/
theorem exec_keeps_inv {c : Call} (hinv : Inv s) (h : exec (commandOfCall c) (lend c s) = .next t) : Inv t := by
  obtain ⟨hidle, ⟨-, rfl⟩ | ⟨o, rest, -, hfin⟩⟩ := exec_next h
  all_goals rw [lend_framer] at hidle
  · rw [lend_log]
    exact hinv.present hidle c _
  · rw [lend_log] at hfin
    obtain ⟨hframer, -, -, -, hlog, hended⟩ := finish_spec hfin
    exact (hinv.present hidle c rest).endCall rfl hframer hlog hended

/-- Every step keeps the invariant. -/
theorem step_keeps_inv (hinv : Inv s) (h : step s = .next t) : Inv t := by
  rcases step_next h with ⟨-, rfl⟩ | ⟨c, rest, -, hexec⟩ | ⟨o, rest, i, -, hbusy, hfin⟩ |
    ⟨e, rest, i, -, -, hbusy, rfl⟩ | ⟨rest, -, -, rfl⟩ | ⟨b, rest, -, hfree, rfl⟩ | ⟨rest, -, -, rfl⟩ |
    ⟨b, rest, -, hfree, rfl⟩
  · exact hinv
  · exact exec_keeps_inv (hinv.takeInput rest) hexec
  · obtain ⟨hframer, -, -, -, hlog, hended⟩ := finish_spec hfin
    exact hinv.endCall hbusy hframer hlog hended
  · obtain ⟨hframer, -, -, -, hlog, hended⟩ := dropCall_spec i { s with inputs := rest }
    exact hinv.endCall hbusy hframer hlog hended
  · exact hinv.takeInput rest
  · exact hinv.of_same_ports rfl rfl rfl (fun hheld => by simp [hfree] at hheld) (fun _ => rfl)
  · exact hinv.takeInput rest
  · exact hinv.of_same_ports rfl rfl rfl (fun _ => rfl) (fun hheld => by simp [hfree] at hheld)

/-- A read in flight holds a buffer of its own length. -/
theorem Inv.readFrame_buffer_length {a : Address} {n : Nat} (hinv : Inv s)
    (hbusy : s.framer = .inFlight (.readFrame a n)) : s.buffer.length = n := by
  have hheld := hinv.held
  simp only [heldByCall, hbusy] at hheld
  exact hheld.2

/-- A dropped read leaves L bytes in the buffer. -/
theorem dropCall_readFrame_buffer_length (a : Address) (n : Nat) (s : State) :
    (dropCall (.readFrame a n) s).buffer.length = n := by
  simp [dropCall]

/-- From `s` to `t` the record of the two ports has only been added to. -/
def PortsGrow (s t : State) : Prop := s.log <+: t.log ∧ s.ended <+: t.ended

/-- Nothing added is a growth. -/
theorem PortsGrow.refl (s : State) : PortsGrow s s :=
  ⟨⟨[], List.append_nil _⟩, ⟨[], List.append_nil _⟩⟩

/-- One growth after another is a growth. -/
theorem PortsGrow.trans {u : State} (h : PortsGrow s t) (h' : PortsGrow t u) : PortsGrow s u := by
  obtain ⟨hlog, hended⟩ := h
  obtain ⟨hlog', hended'⟩ := h'
  exact ⟨hlog.trans hlog', hended.trans hended'⟩

/-- A step only adds to what the two ports have seen. -/
theorem step_portsGrow (h : step s = .next t) : PortsGrow s t := by
  constructor
  · rcases onlyAPresentedCallIssuesATransaction s t h with ⟨hlog, -⟩ | ⟨c, -, -, -, hlog⟩
    · exact ⟨[], by simp [hlog]⟩
    · exact ⟨_, hlog.symm⟩
  · rcases resultsComeOnlyFromOutcomes s t h with hended | ⟨o, hended, -⟩ | ⟨hended, -⟩
    · exact ⟨[], by simp [hended]⟩
    · exact ⟨_, hended.symm⟩
    · exact ⟨_, hended.symm⟩

end endings

/-- A run of one step more that answers is a step that answers and a run that answers. -/
theorem run_succ_next {k : Nat} {s t : State} (h : run (k + 1) s = .next t) :
    ∃ u, step s = .next u ∧ run k u = .next t := by
  rw [run_succ] at h
  exact andThen_next h

/-- What every step keeps holds along every run. -/
theorem run_keeps {P : State → Prop} (hstep : ∀ s t, P s → step s = .next t → P t) {k : Nat} {s t : State}
    (hs : P s) (h : run k s = .next t) : P t := by
  induction k generalizing s with
  | zero => cases h; exact hs
  | succ k ih =>
    obtain ⟨u, hu, hrun⟩ := run_succ_next h
    exact ih (hstep s u hs hu) hrun

/-- Settles O39: nothing is in flight and nothing has crossed the ports. -/
theorem invariantHoldsAtReset : Obligations.InvariantHoldsAtReset where
  held := trivial
  shapes := nofun
  endings := rfl

/-- Settles O40. -/
theorem everyStepKeepsTheInvariant : Obligations.EveryStepKeepsTheInvariant :=
  fun _ _ => step_keeps_inv

/-- Settles O41: the invariant holds at the run's end, and what the ports have seen has only grown. -/
theorem runsIssueOneTransactionPerEnding : Obligations.RunsIssueOneTransactionPerEnding := by
  intro k s t hinv h
  have hinv' : Inv t := run_keeps (fun _ _ => step_keeps_inv) hinv h
  have hgrow : PortsGrow s t :=
    run_keeps (P := PortsGrow s) (fun _ _ hu hstep => hu.trans (step_portsGrow hstep)) (PortsGrow.refl s) h
  obtain ⟨⟨newLog, hlog⟩, ⟨newEnded, hended⟩⟩ := hgrow
  refine ⟨hinv'.endings, ?_, newLog, newEnded, hlog.symm, hended.symm, fun segs hmem => hinv'.shapes segs ?_⟩
  · rw [← hlog, List.length_append]; omega
  · rw [← hlog]; exact List.mem_append_right _ hmem

/-- Settles O42: the outcome and the drop leave L bytes, the length the invariant gives the lent buffer; a touch of the
buffer is refused. -/
theorem endingAReadKeepsTheBufferLength : Obligations.EndingAReadKeepsTheBufferLength := by
  intro s t a n hinv hbusy h
  rw [hinv.readFrame_buffer_length hbusy]
  rcases step_next h with ⟨-, rfl⟩ | ⟨c, rest, hin, -⟩ | ⟨o, rest, i, hin, -⟩ | ⟨e, rest, i, -, -, hi, rfl⟩ |
    ⟨rest, -, hidle, -⟩ | ⟨b, rest, -, hfree, -⟩ | ⟨rest, -, hfree, -⟩ | ⟨b, rest, -, -, rfl⟩
  · exact hinv.readFrame_buffer_length hbusy
  · rw [step_present_inFlight hbusy hin] at h; cases h
  · rw [step_complete_inFlight hbusy hin] at h
    exact finish_readFrame_buffer_length h
  · rw [hbusy] at hi; cases hi
    exact dropCall_readFrame_buffer_length a n _
  · rw [hbusy] at hidle; cases hidle
  · simp [bufferInUse, hbusy] at hfree
  · simp [bufferInUse, hbusy] at hfree
  · exact hinv.readFrame_buffer_length hbusy

end Sys2Proof.Machine
end

