-- ==== Sys2Proof/Proofs/Relation.lean ====
section
/-! PROOF. The machine and the step relation of 10_state.md R31 simulate each other: O45 and O46. -/

namespace Sys2Proof.Machine

-- Every machine step is made of the relation's steps

/-- The caller lends with a call what no call in flight holds. -/
theorem lend_is_callerMove {s : State} (hidle : s.framer = .idle) (c : Call) :
    CallerMove (viewOf s) (viewOf (lend c s)) := by
  cases c with
  | read a b => exact .buffer (viewOf s) b (by simp [viewOf, hidle])
  | write a d => exact .data (viewOf s) d (by simp [viewOf, hidle])

/-- An outcome that ends the command in flight is one of the relation's four cases of `complete`. -/
theorem finish_is_framerStep {i : Instr} {o : BusOutcome} {s t : State} (hbusy : s.framer = .inFlight i)
    (h : finish i o s = .next t) : FramerStep (viewOf s) (viewOf t) := by
  rcases finish_next h with ⟨a, rd, rfl, rfl, rfl⟩ | ⟨a, n, e, rfl, rfl, rfl⟩ | ⟨a, d, rd, rfl, rfl, rfl⟩ |
    ⟨a, d, e, rfl, rfl, rfl⟩
  · exact .readOk (viewOf s) a rd hbusy
  · exact .readErr (viewOf s) a e (anyBytes s.draws n) (by rw [anyBytes_length]; exact hbusy)
  · exact .writeOk (viewOf s) a d hbusy
  · exact .writeErr (viewOf s) a d e hbusy

/-- A dropped call is one of the relation's two cases of `cancel`. -/
theorem dropCall_is_framerStep {i : Instr} {s : State} (hbusy : s.framer = .inFlight i) :
    FramerStep (viewOf s) (viewOf (dropCall i s)) := by
  cases i with
  | readFrame a n => exact .cancelRead (viewOf s) a (anyBytes s.draws n) (by rw [anyBytes_length]; exact hbusy)
  | writeFrame a d => exact .cancelWrite (viewOf s) a d hbusy

/-- A command that runs is the relation's `present`, and the outcome's step after it when the answer comes at once. -/
theorem exec_is_framerSteps {i : Instr} {s t : State} (h : exec i s = .next t) :
    Relation.ReflTransGen FramerStep (viewOf s) (viewOf t) := by
  obtain ⟨hidle, hcase⟩ := exec_next h
  have hpresent := FramerStep.present (viewOf s) i hidle
  rcases hcase with ⟨-, rfl⟩ | ⟨o, rest, -, hfin⟩
  · exact .single hpresent
  · exact .tail (.single hpresent) (finish_is_framerStep rfl hfin)

/-- Settles O45: a presented call lends and then runs; an outcome, a cancel and a reset in flight are one step of the
relation; every other input is the caller's move, or none. -/
theorem everyStepIsAStepOfTheSpecsRelation : Obligations.EveryStepIsAStepOfTheSpecsRelation := by
  intro s t h
  rcases step_next h with ⟨-, rfl⟩ | ⟨c, rest, -, hexec⟩ | ⟨o, rest, i, -, hbusy, hfin⟩ |
    ⟨e, rest, i, -, -, hbusy, rfl⟩ | ⟨rest, -, -, rfl⟩ | ⟨b, rest, -, hfree, rfl⟩ | ⟨rest, -, -, rfl⟩ |
    ⟨b, rest, -, hfree, rfl⟩
  · exact ⟨_, .none _, .refl⟩
  · obtain ⟨hidle, -⟩ := exec_next hexec
    exact ⟨_, lend_is_callerMove (s := { s with inputs := rest }) (by simpa using hidle) c, exec_is_framerSteps hexec⟩
  · exact ⟨_, .none _, .single (finish_is_framerStep (s := { s with inputs := rest }) hbusy hfin)⟩
  · exact ⟨_, .none _, .single (dropCall_is_framerStep (s := { s with inputs := rest }) hbusy)⟩
  · exact ⟨_, .none _, .refl⟩
  · refine ⟨_, .buffer (viewOf s) b (fun a n hf => ?_), .refl⟩
    have hread : s.framer = .inFlight (.readFrame a n) := hf
    simp [bufferInUse, hread] at hfree
  · exact ⟨_, .none _, .refl⟩
  · refine ⟨_, .data (viewOf s) b (fun a d hf => ?_), .refl⟩
    have hwrite : s.framer = .inFlight (.writeFrame a d) := hf
    simp [dataInUse, hwrite] at hfree

-- Every step of the relation is taken by the machine

/-- A call of the command, which for a read lends the buffer that is there when it has the command's length. -/
def callKeeping (buffer : List Byte) : Instr → Call
  | .readFrame a n => .read a (if buffer.length = n then buffer else List.replicate n 0)
  | .writeFrame a d => .write a d

/-- It is a call of that command. -/
@[simp] theorem commandOfCall_callKeeping (buffer : List Byte) (i : Instr) :
    commandOfCall (callKeeping buffer i) = i := by
  cases i with
  | readFrame a n => by_cases hl : buffer.length = n <;> simp [callKeeping, commandOfCall, hl]
  | writeFrame a d => rfl

/-- Presented to an idle framer and a bus device that gives no answer, the call is in flight on what it lent. -/
theorem step_callKeeping {s : State} (hidle : s.framer = .idle) (ha : s.answers = []) (i : Instr) :
    step { s with inputs := [.present (callKeeping s.buffer i)] } = .next
      { lend (callKeeping s.buffer i) { s with inputs := [] } with
        log := s.log ++ [encode i], framer := .inFlight i } := by
  rw [step_present rfl, commandOfCall_callKeeping, exec_later (by simpa using hidle) (.inl (by simpa using ha))]
  simp [ha]

/-- With its outcome the only input, the command in flight ends by it. -/
theorem step_only_complete {i : Instr} {s : State} (hbusy : s.framer = .inFlight i) (o : BusOutcome) :
    step { s with inputs := [.complete o] } = finish i o { s with inputs := [] } :=
  step_complete_inFlight (s := { s with inputs := [.complete o] }) hbusy rfl

/-- With the cancel the only input, the command in flight is dropped. -/
theorem step_only_cancel {i : Instr} {s : State} (hbusy : s.framer = .inFlight i) :
    step { s with inputs := [.cancel] } = .next (dropCall i { s with inputs := [] }) :=
  step_cancel_inFlight (s := { s with inputs := [.cancel] }) hbusy rfl

/-- A read in flight that ends otherwise than by a success is neither a success nor a write. -/
theorem readFrame_not_ok_nor_write {s : State} {a : Address} {n : Nat} {x : Ending}
    (hbusy : s.framer = .inFlight (.readFrame a n)) (hx : x ≠ .delivered .ok) :
    ¬ (s.ended ++ [x] = s.ended ++ [.delivered .ok] ∨ ∃ a d, s.framer = .inFlight (.writeFrame a d)) := by
  simp [hbusy, hx]

/-- Settles O46: the input is the call, the outcome or the cancel the relation's step speaks of. -/
theorem everySpecStepIsTakenByTheMachine : Obligations.EverySpecStepIsTakenByTheMachine := by
  intro s v h _ ha
  cases h with
  | present i hidle =>
    refine ⟨_, _, step_callKeeping hidle ha i, rfl, rfl, lend_ended _ _, nofun, ?_, ?_⟩
    · rintro a n ⟨⟩
      refine ⟨rfl, ?_, ?_⟩
      · show (if s.buffer.length = n then s.buffer else List.replicate n 0).length = n
        split
        · assumption
        · exact List.length_replicate
      · exact fun hl => if_pos hl
    · rintro a d ⟨⟩
      exact ⟨rfl, rfl, Eq.symm⟩
  | readOk a rd hbusy =>
    exact ⟨.complete (.ok rd), _, (step_only_complete hbusy _).trans (finish_readFrame_ok rfl), rfl, rfl, rfl,
      fun _ => ⟨rfl, rfl, fun _ => rfl⟩, nofun, nofun⟩
  | readErr a e any hbusy =>
    exact ⟨.complete (.err e), _, (step_only_complete hbusy _).trans (finish_readFrame_err e), rfl, rfl, rfl,
      fun _ => ⟨rfl, anyBytes_length _ _, fun hor => absurd hor (readFrame_not_ok_nor_write hbusy nofun)⟩, nofun, nofun⟩
  | writeOk a d hbusy =>
    exact ⟨.complete (.ok []), _, (step_only_complete hbusy _).trans finish_writeFrame, rfl, rfl, rfl,
      fun _ => ⟨rfl, rfl, fun _ => rfl⟩, nofun, nofun⟩
  | writeErr a d e hbusy =>
    exact ⟨.complete (.err e), _, (step_only_complete hbusy _).trans finish_writeFrame, rfl, rfl, rfl,
      fun _ => ⟨rfl, rfl, fun _ => rfl⟩, nofun, nofun⟩
  | cancelRead a any hbusy =>
    exact ⟨.cancel, _, step_only_cancel hbusy, rfl, rfl, rfl,
      fun _ => ⟨rfl, dropCall_readFrame_buffer_length a _ _, fun hor => absurd hor (readFrame_not_ok_nor_write hbusy nofun)⟩,
      nofun, nofun⟩
  | cancelWrite a d hbusy =>
    exact ⟨.cancel, _, step_only_cancel hbusy, rfl, rfl, rfl,
      fun _ => ⟨rfl, rfl, fun _ => rfl⟩, nofun, nofun⟩

end Sys2Proof.Machine
end

