-- ==== Sys2Proof/Proofs/Runs.lean ====
section
/-! PROOF. Runs of any length: serialised calls in order, no progress of the block's own, and what no run looks at
(20_memory.md section 5, 70_reset_and_hazards.md section 3, 60_exceptions.md section 1, 10_state.md section 1): O51 to O54. -/

namespace Sys2Proof.Machine

/-- A run cut in two. -/
theorem run_add (m n : Nat) (s : State) : run (m + n) s = andThen (run m s) (run n) := by
  induction m generalizing s with
  | zero => rw [Nat.zero_add]; rfl
  | succ m ih =>
    rw [Nat.succ_add, run_succ, run_succ]
    cases step s with
    | next t => exact ih t
    | fault x => rfl
    | refused x => rfl

/-- A run whose first step answers goes on from its answer. -/
theorem run_of_step {k : Nat} {s t : State} (h : step s = .next t) : run (k + 1) s = run k t := by
  rw [run_succ, h]; rfl

/-- Settles O52: every step with no input is the state itself. -/
theorem withoutInputNothingEverHappens : Obligations.WithoutInputNothingEverHappens := by
  intro k s h
  have hstep : step s = .next s := by simp [step, h]
  induction k with
  | zero => rfl
  | succ k ih => rw [run_of_step hstep, ih]

-- Serialised calls

/-- A call presented to an idle framer and a bus device that answers later is in flight, its transaction issued. -/
theorem step_present_later {c : Call} {s : State} {rest : List Event} (hidle : s.framer = .idle)
    (ha : answersLater s) (hin : s.inputs = .present c :: rest) :
    ∃ t, step s = .next t ∧ t.framer = .inFlight (commandOfCall c) ∧ t.answers = s.answers.tail ∧ t.inputs = rest ∧
      t.log = s.log ++ [encode (commandOfCall c)] ∧ t.ended = s.ended := by
  have hlater : answersLater (lend c { s with inputs := rest }) := by simpa [answersLater] using ha
  refine ⟨_, (step_present hin).trans (exec_later (by simpa using hidle) hlater), rfl, ?_, ?_, ?_, ?_⟩
  all_goals simp

/-- An outcome that keeps the contract ends the call in flight with its result, and issues nothing. -/
theorem step_complete_fits {i : Instr} {o : BusOutcome} {s : State} {rest : List Event}
    (hbusy : s.framer = .inFlight i) (hfits : o.fits i = true) (hin : s.inputs = .complete o :: rest) :
    ∃ t, step s = .next t ∧ t.framer = .idle ∧ t.answers = s.answers ∧ t.inputs = rest ∧ t.log = s.log ∧
      t.ended = s.ended ++ [.delivered (resultOf o)] := by
  obtain ⟨t, hfin⟩ := (finish_completes i o { s with inputs := rest }).2 hfits
  obtain ⟨hframer, -, hinputs, hanswers, hlog, hended⟩ := finish_spec hfin
  exact ⟨t, (step_complete_inFlight hbusy hin).trans hfin, hframer, hanswers, hinputs, hlog, hended⟩

/-- One call, presented to an idle framer and then given its outcome, takes two steps and leaves the framer Idle, its own
transaction and its own result added to the record. -/
theorem run_exchange {x : Exchange} {s : State} {rest : List Event} (hidle : s.framer = .idle) (ha : s.answers = [])
    (hin : s.inputs = .present x.call :: .complete x.outcome :: rest)
    (hfits : x.outcome.fits (commandOfCall x.call) = true) :
    ∃ t, run 2 s = .next t ∧ t.framer = .idle ∧ t.answers = [] ∧ t.inputs = rest ∧
      t.log = s.log ++ [encode (commandOfCall x.call)] ∧ t.ended = s.ended ++ [.delivered (resultOf x.outcome)] := by
  obtain ⟨u, hpresent, hubusy, hua, huin, hulog, huended⟩ := step_present_later hidle (.inl ha) hin
  obtain ⟨t, hcomplete, htidle, hta, htin, htlog, htended⟩ := step_complete_fits hubusy hfits huin
  refine ⟨t, ?_, htidle, ?_, htin, ?_, ?_⟩
  · rw [run_of_step hpresent, run_of_step hcomplete]; rfl
  · rw [hta, hua, ha]; rfl
  · rw [htlog, hulog]
  · rw [htended, huended]

/-- Settles O51, by induction on the calls: each leaves the framer Idle for the next. -/
theorem serialisedCallsRunInOrder : Obligations.SerialisedCallsRunInOrder := by
  intro xs
  induction xs with
  | nil =>
    intro s rest hidle _ hin _
    exact ⟨s, rfl, hidle, hin, (List.append_nil _).symm, (List.append_nil _).symm⟩
  | cons x xs ih =>
    intro s rest hidle ha hin hfits
    obtain ⟨u, hrun, huidle, hua, huin, hulog, huended⟩ :=
      run_exchange hidle ha hin (hfits x List.mem_cons_self)
    obtain ⟨t, hrest, htidle, htin, htlog, htended⟩ :=
      ih u rest huidle hua huin (fun y hy => hfits y (List.mem_cons_of_mem x hy))
    refine ⟨t, ?_, htidle, htin, ?_, ?_⟩
    · rw [List.length_cons, Nat.mul_succ, Nat.add_comm, run_add, hrun]
      exact hrest
    · rw [htlog, hulog, List.append_assoc]; rfl
    · rw [htended, huended, List.append_assoc]; rfl

-- What no run looks at: the error values, and what the ports have seen before

/-- A state with every error value renamed and an older history put before its own: the two changes that no step sees,
made together so that one proof serves for both. -/
def disguise (f : TransportError → TransportError) (oldLog : List (List Segment)) (oldEnded : List Ending) (s : State) :
    State :=
  withPast oldLog oldEnded (renameErrors f s)

section disguise
variable (f : TransportError → TransportError) (oldLog : List (List Segment)) (oldEnded : List Ending) (s : State)

@[simp] theorem disguise_framer : (disguise f oldLog oldEnded s).framer = s.framer := rfl
@[simp] theorem disguise_inputs : (disguise f oldLog oldEnded s).inputs = s.inputs.map (renameEvent f) := rfl
@[simp] theorem disguise_answers : (disguise f oldLog oldEnded s).answers = s.answers.map (renameAnswer f) := rfl

/-- Lending and the disguise do not meet. -/
theorem lend_disguise (c : Call) : lend c (disguise f oldLog oldEnded s) = disguise f oldLog oldEnded (lend c s) := by
  cases c <;> rfl

/-- Delivering the renamed result to the disguised state is delivering and then disguising. -/
theorem deliver_disguise (r : Result) :
    deliver (renameResult f r) (disguise f oldLog oldEnded s) = disguise f oldLog oldEnded (deliver r s) := by
  simp [deliver, disguise, withPast, renameErrors, renameEnding]

/-- The same without a result. -/
theorem abandon_disguise : abandon (disguise f oldLog oldEnded s) = disguise f oldLog oldEnded (abandon s) := by
  simp [abandon, disguise, withPast, renameErrors, renameEnding]

/-- Dropping a call and the disguise commute. -/
theorem dropCall_disguise (i : Instr) :
    dropCall i (disguise f oldLog oldEnded s) = disguise f oldLog oldEnded (dropCall i s) := by
  cases i with
  | readFrame a n => exact abandon_disguise f oldLog oldEnded (spoilBuffer n s)
  | writeFrame a d => exact abandon_disguise f oldLog oldEnded s

/-- A reset and the disguise commute. -/
theorem resetFramer_disguise :
    resetFramer (disguise f oldLog oldEnded s) = disguise f oldLog oldEnded (resetFramer s) := by
  rcases resetFramer_cases s with ⟨hidle, h⟩ | ⟨i, hbusy, h⟩
  · rw [h]; simp [resetFramer, hidle]
  · rw [h, ← dropCall_disguise]; simp [resetFramer, hbusy]

/-- The renamed outcome ends a command in the disguised state as the outcome does, and then the disguise. -/
theorem finish_disguise (i : Instr) (o : BusOutcome) :
    finish i (renameOutcome f o) (disguise f oldLog oldEnded s) =
      mapNext (disguise f oldLog oldEnded) (finish i o s) := by
  cases i with
  | readFrame a n =>
    cases o with
    | ok rd =>
      by_cases hl : rd.length = n
      · simp only [finish, renameOutcome, hl, if_true]
        exact congrArg _ (deliver_disguise f oldLog oldEnded (fillBuffer rd s) .ok)
      · simp [finish, renameOutcome, hl, mapNext]
    | err e => exact congrArg _ (deliver_disguise f oldLog oldEnded (spoilBuffer n s) (.err e))
  | writeFrame a d =>
    cases o with
    | ok rd => exact congrArg _ (deliver_disguise f oldLog oldEnded s .ok)
    | err e => exact congrArg _ (deliver_disguise f oldLog oldEnded s (.err e))

/-- The renamed outcome completes in the disguised state as the outcome does, and then the disguise. -/
theorem complete_disguise (o : BusOutcome) :
    complete (renameOutcome f o) (disguise f oldLog oldEnded s) =
      mapNext (disguise f oldLog oldEnded) (complete o s) := by
  cases hf : s.framer with
  | idle => simp [complete, hf, mapNext]
  | inFlight i => rw [complete_inFlight _ hf, complete_inFlight (s := disguise f oldLog oldEnded s) _ hf, finish_disguise]

/-- A cancel and the disguise commute. -/
theorem cancel_disguise :
    cancel (disguise f oldLog oldEnded s) = mapNext (disguise f oldLog oldEnded) (cancel s) := by
  cases hf : s.framer with
  | idle => simp [cancel, hf, mapNext]
  | inFlight i => simp [cancel, hf, mapNext, dropCall_disguise]

/-- The bus device's turn and the disguise commute: it looks at when an answer comes, and hands on the outcome. -/
theorem busResponds_disguise :
    busResponds (disguise f oldLog oldEnded s) = mapNext (disguise f oldLog oldEnded) (busResponds s) := by
  match ha : s.answers with
  | [] =>
    simp only [busResponds, ha, disguise_answers, List.map_nil]
    rfl
  | .later :: rest =>
    simp only [busResponds, ha, disguise_answers, List.map_cons, renameAnswer]
    rfl
  | .atOnce o :: rest =>
    simp only [busResponds, ha, disguise_answers, List.map_cons, renameAnswer]
    exact complete_disguise f oldLog oldEnded { s with answers := rest } o

/-- Issuing a transaction after an older history is issuing it and putting the history before. -/
theorem busTransaction_disguise (segs : List Segment) :
    busTransaction segs (disguise f oldLog oldEnded s) = disguise f oldLog oldEnded (busTransaction segs s) := by
  simp [busTransaction, disguise, withPast, renameErrors]

/-- Running a command and the disguise commute. -/
theorem exec_disguise (i : Instr) :
    exec i (disguise f oldLog oldEnded s) = mapNext (disguise f oldLog oldEnded) (exec i s) := by
  rcases present_cases i s with ⟨hidle, -⟩ | ⟨c, hbusy, -⟩
  · rw [exec_idle hidle, exec_idle (s := disguise f oldLog oldEnded s) hidle, busTransaction_disguise]
    exact busResponds_disguise f oldLog oldEnded { busTransaction (encode i) s with framer := .inFlight i }
  · rw [exec_inFlight hbusy, exec_inFlight (s := disguise f oldLog oldEnded s) hbusy]
    rfl

/-- Every input, renamed, does to the disguised state what it does, and then the disguise. -/
theorem onEvent_disguise (e : Event) :
    onEvent (renameEvent f e) (disguise f oldLog oldEnded s) =
      mapNext (disguise f oldLog oldEnded) (onEvent e s) := by
  cases e with
  | present c =>
    simp only [onEvent, renameEvent, lend_disguise]
    exact exec_disguise f oldLog oldEnded _ _
  | complete o => exact complete_disguise f oldLog oldEnded s o
  | cancel => exact cancel_disguise f oldLog oldEnded s
  | reset => exact congrArg _ (resetFramer_disguise f oldLog oldEnded s)
  | setBuffer b =>
    have huse : bufferInUse (disguise f oldLog oldEnded s) = bufferInUse s := rfl
    simp only [onEvent, renameEvent, huse]
    cases bufferInUse s <;> rfl
  | readBuffer =>
    have huse : bufferInUse (disguise f oldLog oldEnded s) = bufferInUse s := rfl
    simp only [onEvent, renameEvent, huse]
    cases bufferInUse s <;> rfl
  | setData b =>
    have huse : dataInUse (disguise f oldLog oldEnded s) = dataInUse s := rfl
    simp only [onEvent, renameEvent, huse]
    cases dataInUse s <;> rfl

/-- A step and the disguise commute. -/
theorem step_disguise :
    step (disguise f oldLog oldEnded s) = mapNext (disguise f oldLog oldEnded) (step s) := by
  match hin : s.inputs with
  | [] => simp [step, hin, mapNext]
  | e :: rest =>
    have hin' : (disguise f oldLog oldEnded s).inputs = renameEvent f e :: rest.map (renameEvent f) := by simp [hin]
    rw [step_input hin, step_input hin']
    exact onEvent_disguise f oldLog oldEnded { s with inputs := rest } e

end disguise

/-- What commutes with every step commutes with every run. -/
theorem run_mapNext {g : State → State} (hstep : ∀ s, step (g s) = mapNext g (step s)) (k : Nat) (s : State) :
    run k (g s) = mapNext g (run k s) := by
  induction k generalizing s with
  | zero => rfl
  | succ k ih =>
    rw [run_succ, run_succ, hstep]
    cases step s with
    | next t => exact ih t
    | fault x => rfl
    | refused x => rfl

/-- With no older history the disguise renames the errors. -/
theorem disguise_no_past (f : TransportError → TransportError) : disguise f [] [] = renameErrors f := rfl

-- Renaming by the identity is no renaming.
theorem renameOutcome_id : renameOutcome id = id := by funext o; cases o <;> rfl
theorem renameEvent_id : renameEvent id = id := by funext e; cases e <;> simp [renameEvent, renameOutcome_id]
theorem renameAnswer_id : renameAnswer id = id := by funext a; cases a <;> simp [renameAnswer, renameOutcome_id]
theorem renameResult_id : renameResult id = id := by funext r; cases r <;> rfl
theorem renameEnding_id : renameEnding id = id := by funext x; cases x <;> simp [renameEnding, renameResult_id]

/-- With no error renamed the disguise puts the older history before. -/
theorem disguise_id (oldLog : List (List Segment)) (oldEnded : List Ending) :
    disguise id oldLog oldEnded = withPast oldLog oldEnded := by
  funext s
  simp [disguise, renameErrors, renameEvent_id, renameAnswer_id, renameEnding_id]

/-- Settles O53: the renaming commutes with every step, so with every run. -/
theorem errorValuesAreNeverInterpreted : Obligations.ErrorValuesAreNeverInterpreted := by
  intro f k s
  rw [← disguise_no_past]
  exact run_mapNext (step_disguise f [] []) k s

/-- Settles O54: the older history commutes with every step, so with every run. -/
theorem noCallObservesAnEarlierOne : Obligations.NoCallObservesAnEarlierOne := by
  intro oldLog oldEnded k s
  rw [← disguise_id]
  exact run_mapNext (step_disguise id oldLog oldEnded) k s

end Sys2Proof.Machine
end
